-- ==== Sys2Proof/Word.lean ====
section
/-! DEFINITION. The one word type of the machine: a byte (00_scope.md R5, XLEN = 8; R7). -/

namespace Sys2Proof

/-- Every register, memory cell, operand byte and opcode is an unsigned 8-bit value (00_scope.md R7). -/
abbrev Byte := BitVec 8

end Sys2Proof
end

