-- ==== Sys2Proof/Config.lean ====
section
/-! DEFINITION. The parameters of the machine: the fixed reset literals of 00_scope.md R5 and the three policy
parameters of R6, which a model takes as configuration. -/

namespace Sys2Proof

/-- ADDR_OVERRUN_POLICY (00_scope.md R6): what a fetch address or next-pc value above 255 does. -/
inductive OverrunPolicy where
  | refuse
  | wrap
deriving DecidableEq, Repr

/-- REG_INDEX_POLICY (00_scope.md R6): what an operand byte of value 8 to 255 does where a register index is required. -/
inductive IndexPolicy where
  | refuse
  | mask3
deriving DecidableEq, Repr

/-- The policy parameters of 00_scope.md R6. Fixed for a machine: no step changes them (log 1). -/
structure Config where
  /-- EXPOSE_ADD: whether the byte 0xA0 dispatches to the ALU operation ADD (30_encoding.md R68). -/
  exposeAdd   : Bool
  addrOverrun : OverrunPolicy
  regIndex    : IndexPolicy
deriving DecidableEq, Repr

/-- The defaults of 00_scope.md R6. -/
def Config.default : Config := { exposeAdd := false, addrOverrun := .refuse, regIndex := .refuse }

/-- NREGS of 00_scope.md R5. -/
abbrev Config.nregs : Nat := 8

/-- MEMSIZE of 00_scope.md R5. -/
abbrev Config.memSize : Nat := 256

/-- SP_RESET of 00_scope.md R5 (92_eei_decisions.md D24; log 22). -/
def Config.spReset : Byte := 255#8

/-- GPR_RESET of 00_scope.md R5. -/
def Config.gprReset : Byte := 0#8

/-- PC_RESET of 00_scope.md R5. -/
def Config.pcReset : Byte := 0#8

end Sys2Proof
end

