-- ==== Sys2Proof/Machine/State.lean ====
section
/-! DEFINITION. The machine's state as plain data (10_state.md R20), the reasons a step can stop, and reset (R34). -/

namespace Sys2Proof.Machine

open Sys2Proof

/-- The three condition flags FL.L, FL.G, FL.E (10_state.md R28). -/
structure Flags where
  l : Bool
  g : Bool
  e : Bool
deriving DecidableEq, Repr

/-- The causes of an abort (60_exceptions.md R150 to R152). -/
inductive AbortCause where
  /-- DIV with a divisor register that holds 0 (R151). -/
  | divideByZero
  /-- An ALU request outside the supported set; unreachable through dispatch (R152). -/
  | unsupportedAluOperation
deriving DecidableEq, Repr

/-- The run state (10_state.md R27, R34). -/
inductive RunState where
  /-- Not yet Running: reset has happened, the block waits for load and start (R34; 90_conflicts.md C10; log 11). -/
  | waiting
  /-- The engine executes cycles. -/
  | running
  /-- HLT has executed: the source's halted flag is true. -/
  | halted
  /-- A fatal error ended the run. -/
  | aborted (cause : AbortCause)
deriving DecidableEq, Repr

/-- RAM as a list of (address, byte) pairs in one canonical form, `Memory.wf` in Machine/Ops.lean (10_state.md R33). -/
abbrev Memory := List Host.Cell

/-- The whole state of the block (10_state.md R20), and the configuration it is built with (00_scope.md R6). -/
structure State where
  /-- The register file x[0] to x[7] (R21); x[7] is the stack pointer (R22). -/
  x   : Vector Byte 8
  /-- The program counter (R25). -/
  pc  : Byte
  /-- The condition flags (R28). -/
  fl  : Flags
  /-- The run state (R27). -/
  run : RunState
  /-- RAM (R33). -/
  mem : Memory
  /-- The output stream written by PRN, oldest first (R30). -/
  out : List Byte
  /-- The model's own field: the policy parameters, which no step changes (log 1). -/
  cfg : Config
deriving DecidableEq, Repr

/-- Why the machine's next state is not specified: the outcomes Unspecified(reason) of 00_scope.md R9, fault-like and never a
final state (60_exceptions.md R161). -/
inductive Fault where
  /-- Unspecified(AddrOverrun): raised by the engine's operand reads and by an advance beyond address 255 under
  ADDR_OVERRUN_POLICY = refuse (40_engine_cycle.md R82, R86). Safe: the model stops where the spec says nothing (log 4). -/
  | addrOverrun
  /-- Unspecified(RegIndex): raised by a handler that uses an operand byte above 7 as a register under REG_INDEX_POLICY = refuse
  (30_encoding.md R65). Safe: the model stops where the spec says nothing (log 5). -/
  | regIndex
deriving DecidableEq, Repr

/-- Why an instruction has no meaning in the model. -/
inductive Refusal where
  /-- Raised by an arm of exec whose instruction has no meaning yet (none in this model). Safe: the model stops. -/
  | notModelled (mnemonic : String)
deriving DecidableEq, Repr

/-- What a step, a cycle or a meaning answers. -/
abbrev Result := Host.Outcome State Fault Refusal

/-- The state after reset and before the load (10_state.md R34; 70_reset_and_hazards.md R170): memory lists nothing, so every cell
reads RAM_FILL. The configuration is the spec's default (00_scope.md R6). -/
def State.reset : State where
  x   := (Vector.replicate 8 Config.gprReset).set 7 Config.spReset
  pc  := Config.pcReset
  fl  := { l := false, g := false, e := false }
  run := .waiting
  mem := []
  out := []
  cfg := Config.default

end Sys2Proof.Machine
end

