-- ==== Sys2Proof/Machine/Flags.lean ====
section
/-! DEFINITION. Every flag computation of the spec: the ALU's comparison (43_compare.md R120, R121) and the packed view
(10_state.md R29). No arithmetic instruction computes a flag (42_alu_arithmetic.md R111). -/

namespace Sys2Proof.Machine

open Sys2Proof

/-- The comparison of two unsigned bytes, tested in the order less, greater, equal (43_compare.md R120). -/
def compareFlags (x y : Byte) : Flags :=
  if x.toNat < y.toNat then { l := true, g := false, e := false }
  else if y.toNat < x.toNat then { l := false, g := true, e := false }
  else { l := false, g := false, e := true }

/-- The flags as one byte FL: bits 7:3 = 0, bit 2 = L, bit 1 = G, bit 0 = E (10_state.md R29; unobservable by programs; log 21). -/
def Flags.packed (f : Flags) : Byte :=
  BitVec.ofNat 8 (4 * f.l.toNat + 2 * f.g.toNat + f.e.toNat)

/-- No flag set: the reset value, before any compare (10_state.md R28). -/
def Flags.clear : Flags := { l := false, g := false, e := false }

/-- Exactly one of the three is set, as after every compare (10_state.md R28). -/
def Flags.exactlyOne (f : Flags) : Bool := f.l.toNat + f.g.toNat + f.e.toNat == 1

end Sys2Proof.Machine
end

