-- ==== Sys2Proof/Syntax.lean ====
section
/-! DEFINITION. The instruction set: one constructor per row of spec/opcode_table.json (30_encoding.md R66). Operands are the
raw operand bytes, since what a byte above 7 does depends on REG_INDEX_POLICY and on whether the instruction uses it
(30_encoding.md R65). ADD is no row of the table and no constructor (R68; log 3). -/

namespace Sys2Proof

/-- The dispatchable instructions with their operand bytes. `a` is the byte at pc+1, `b` the byte at pc+2. -/
inductive Instr where
  /-- HLT (R100). -/
  | hlt
  /-- LDI a, b: register a, immediate b (R101). -/
  | ldi (a b : Byte)
  /-- PRN a (R102). -/
  | prn (a : Byte)
  /-- MUL a, b (R112). -/
  | mul (a b : Byte)
  /-- SUB a, b (R114). -/
  | sub (a b : Byte)
  /-- DIV a, b (R115). -/
  | div (a b : Byte)
  /-- INC a (R116). -/
  | inc (a : Byte)
  /-- DEC a (R117). -/
  | dec (a : Byte)
  /-- CMP a, b (R121). -/
  | cmp (a b : Byte)
  /-- PUSH a (R131). -/
  | push (a : Byte)
  /-- POP a (R132). -/
  | pop (a : Byte)
  /-- JMP a (R141). -/
  | jmp (a : Byte)
  /-- JEQ a (R142). -/
  | jeq (a : Byte)
  /-- JNE a (R143). -/
  | jne (a : Byte)
deriving DecidableEq, Repr

/-- The keys' names in the dispatch table: the 14 rows of 30_encoding.md R66. -/
inductive Op where
  | hlt | ldi | prn | mul | sub | div | inc | dec | cmp | push | pop | jmp | jeq | jne
deriving DecidableEq, Repr

/-- The row of the dispatch table an instruction belongs to. -/
def Instr.op : Instr → Op
  | .hlt => .hlt
  | .ldi _ _ => .ldi
  | .prn _ => .prn
  | .mul _ _ => .mul
  | .sub _ _ => .sub
  | .div _ _ => .div
  | .inc _ => .inc
  | .dec _ => .dec
  | .cmp _ _ => .cmp
  | .push _ => .push
  | .pop _ => .pop
  | .jmp _ => .jmp
  | .jeq _ => .jeq
  | .jne _ => .jne

/-- The operand bytes an instruction carries, in address order (30_encoding.md R60). -/
def Instr.operands : Instr → List Byte
  | .hlt => []
  | .ldi a b => [a, b]
  | .prn a => [a]
  | .mul a b => [a, b]
  | .sub a b => [a, b]
  | .div a b => [a, b]
  | .inc a => [a]
  | .dec a => [a]
  | .cmp a b => [a, b]
  | .push a => [a]
  | .pop a => [a]
  | .jmp a => [a]
  | .jeq a => [a]
  | .jne a => [a]

end Sys2Proof
end

