-- ==== Sys2Proof/Decode.lean ====
section
/-! DEFINITION. The opcode table, the fields of the opcode byte, the decoder (total on any bytes, rejecting by name) and the
encoder (30_encoding.md R60 to R71). -/

namespace Sys2Proof

/-- The dispatch table's keys, kept in one place so that they can be replaced (30_encoding.md R66; LDI from the source, the
other 13 from 92_eei_decisions.md D2; log 2). -/
def Op.byte : Op → Byte
  | .hlt  => 0b00000001#8
  | .ldi  => 0b10000010#8
  | .prn  => 0b01000111#8
  | .mul  => 0b10100010#8
  | .sub  => 0b10100001#8
  | .div  => 0b10100011#8
  | .inc  => 0b01100101#8
  | .dec  => 0b01100110#8
  | .cmp  => 0b10100111#8
  | .push => 0b01000101#8
  | .pop  => 0b01000110#8
  | .jmp  => 0b01010100#8
  | .jeq  => 0b01010101#8
  | .jne  => 0b01010110#8

/-- The 14 rows of the dispatch table (30_encoding.md R66). -/
def Op.all : List Op :=
  [.hlt, .ldi, .prn, .mul, .sub, .div, .inc, .dec, .cmp, .push, .pop, .jmp, .jeq, .jne]

/-- The byte that dispatches to ADD when EXPOSE_ADD = true (30_encoding.md R68). -/
def addByte : Byte := 0b10100000#8

/-- N, bits 7:6 of the opcode byte, decoded from the byte itself for every value (30_encoding.md R62). -/
def operandCount (ir : Byte) : Nat := (BitVec.extractLsb' 6 2 ir).toNat

/-- C, bit 4 of the opcode byte (30_encoding.md R62). -/
def selfAdvance (ir : Byte) : Bool := ir.getLsbD 4

/-- The row whose key is the whole byte (30_encoding.md R66: mask 0xFF). -/
def decodeOp (ir : Byte) : Option Op := Op.all.find? (fun o => o.byte == ir)

/-- Why bytes are no instruction of the table. -/
inductive DecodeError where
  /-- The byte has no row in the dispatch table: an unknown opcode (30_encoding.md R69). -/
  | unknownOpcode (ir : Byte)
  /-- The list ends before the operand bytes the opcode declares. The engine never meets this: it always reads two. -/
  | truncated
deriving DecidableEq, Repr

/-- What a decoder answers: an instruction and the bytes after it, or a named rejection. -/
abbrev Decoded := Except DecodeError (Instr × List Byte)

/-- Format F1 of 30_encoding.md R60: one operand byte. -/
def takeOne (build : Byte → Instr) : List Byte → Decoded
  | a :: rest => .ok (build a, rest)
  | [] => .error .truncated

/-- Format F2 of 30_encoding.md R60: two operand bytes. -/
def takeTwo (build : Byte → Byte → Instr) : List Byte → Decoded
  | a :: b :: rest => .ok (build a b, rest)
  | _ => .error .truncated

/-- The operand bytes of a row, by the format of 30_encoding.md R66. -/
def takeOperands : Op → List Byte → Decoded
  | .hlt,  bytes => .ok (.hlt, bytes)
  | .ldi,  bytes => takeTwo .ldi bytes
  | .prn,  bytes => takeOne .prn bytes
  | .mul,  bytes => takeTwo .mul bytes
  | .sub,  bytes => takeTwo .sub bytes
  | .div,  bytes => takeTwo .div bytes
  | .inc,  bytes => takeOne .inc bytes
  | .dec,  bytes => takeOne .dec bytes
  | .cmp,  bytes => takeTwo .cmp bytes
  | .push, bytes => takeOne .push bytes
  | .pop,  bytes => takeOne .pop bytes
  | .jmp,  bytes => takeOne .jmp bytes
  | .jeq,  bytes => takeOne .jeq bytes
  | .jne,  bytes => takeOne .jne bytes

/-- The decoder: the first byte selects the row by all its bits, the row's format takes the operand bytes. -/
def decode : List Byte → Decoded
  | [] => .error .truncated
  | ir :: bytes =>
    match decodeOp ir with
    | none => .error (.unknownOpcode ir)
    | some op => takeOperands op bytes

/-- The encoder: the opcode byte, then the operand bytes in address order (30_encoding.md R60). -/
def encode (i : Instr) : List Byte := i.op.byte :: i.operands

/-- Byte `k` of an instruction whose bits are numbered as spec/opcode_table.json numbers them: bit 0 is the least
significant bit of the first byte. -/
def tableByte (nbits w k : Nat) : Byte := BitVec.ofNat 8 ((w % 2 ^ nbits) >>> (8 * k))

/-- The three bytes of a table word, the first at the lowest address; every bit above `nbits` is 0. -/
def tableBytes (nbits w : Nat) : List Byte := [tableByte nbits w 0, tableByte nbits w 1, tableByte nbits w 2]

/-- The instruction the decoder reads from a table word (none where it rejects). -/
def decodeTableWord (nbits w : Nat) : Option Instr :=
  match decode (tableBytes nbits w) with
  | .ok (i, _) => some i
  | .error _ => none

end Sys2Proof
end

