-- ==== Sys2Proof/Machine/Ops.lean ====
section
/-! DEFINITION. The shared operations over memory, registers, the program counter and the run state: one byte read and written,
the engine's advance, abort entry. Everything that reads or writes a field of State goes through here. -/

namespace Sys2Proof.Machine

open Sys2Proof

/-! ### Memory (20_memory.md) -/

/-- RAM_FILL: what a cell that nothing has written reads as (10_state.md R34, 92_eei_decisions.md D8; log 7). -/
def ramFill : Byte := 0#8

/-- Read one byte. A read changes nothing (20_memory.md R44). -/
def Memory.read : Memory → Nat → Byte
  | [], _ => ramFill
  | (k, v) :: m, a => if k = a then v else Memory.read m a

/-- Replace one whole cell (20_memory.md R44), keeping the canonical form. -/
def Memory.write : Memory → Nat → Byte → Memory
  | [], a, v => if v = ramFill then [] else [(a, v)]
  | (k, w) :: m, a, v =>
    if a < k then (if v = ramFill then (k, w) :: m else (a, v) :: (k, w) :: m)
    else if a = k then (if v = ramFill then m else (a, v) :: m)
    else (k, w) :: Memory.write m a v

/-- The canonical form: addresses below MEMSIZE, strictly rising, no entry equal to what an unlisted address reads as. -/
def Memory.wf : Memory → Bool
  | [] => true
  | (k, v) :: m =>
    decide (k < Config.memSize) && decide (v ≠ ramFill) && m.all (fun c => decide (k < c.1)) && Memory.wf m

/-- MemRead(addr, 1) of 00_scope.md R8. -/
def State.readByte (s : State) (a : Byte) : Byte := s.mem.read a.toNat

/-- MemWrite(addr, 1, v) of 00_scope.md R8. -/
def State.writeByte (s : State) (a v : Byte) : State := { s with mem := s.mem.write a.toNat v }

/-! ### Registers (10_state.md R21 to R23) -/

/-- The index of a slot of the register file. -/
abbrev RegIx := Fin Config.nregs

/-- SP_INDEX: register 7 is the stack pointer (10_state.md R22). -/
def spIx : RegIx := 7

/-- `x[i]`. -/
def State.reg (s : State) (i : RegIx) : Byte := s.x[i]

/-- `x[i] <- v`. No register is hardwired or protected (10_state.md R21, R22). -/
def State.setReg (s : State) (i : RegIx) (v : Byte) : State := { s with x := s.x.set i v }

/-! ### Flags, output, run state -/

/-- Write all three flags; only CMP does (10_state.md R28). -/
def State.setFlags (s : State) (f : Flags) : State := { s with fl := f }

/-- `out <- out ++ [v]` (10_state.md R30). -/
def State.emit (s : State) (v : Byte) : State := { s with out := s.out ++ [v] }

/-- `halted <- true` (41_system_and_immediate.md R100). -/
def State.halt (s : State) : State := { s with run := .halted }

/-- Start: run = Running (70_reset_and_hazards.md R172). -/
def State.start (s : State) : State := { s with run := .running }

/-- ABORT ENTRY (60_exceptions.md R156), the one shared operation: the run state records the cause and nothing else changes. No
state is saved, no vector is taken, pc stays at the aborting opcode. There is no return from an abort (R157), so no operation
stands beside it. -/
def State.abort (s : State) (cause : AbortCause) : State := { s with run := .aborted cause }

/-! ### The program counter (10_state.md R25, R26) -/

/-- `pc <- t` for an address t in 0 to 255. -/
def State.setPc (s : State) (t : Byte) : State := { s with pc := t }

/-- `pc <- pc + n` under ADDR_OVERRUN_POLICY: above 255 the cycle's outcome is Unspecified(AddrOverrun), or the value is taken
modulo 256 (40_engine_cycle.md R86). -/
def movePc (n : Nat) (s : State) : Result :=
  let t := s.pc.toNat + n
  if 255 < t ∧ s.cfg.addrOverrun = .refuse then .fault .addrOverrun
  else .next (s.setPc (BitVec.ofNat 8 t))

/-- Step 5 of the cycle, advance: the test is on bit 4 of the opcode (40_engine_cycle.md R85). -/
def advance (ir : Byte) (s : State) : Result :=
  if selfAdvance ir then .next s else movePc (operandCount ir + 1) s

end Sys2Proof.Machine
end

