-- ==== Sys2Proof/Machine/Operands.lean ====
section
/-! DEFINITION. The operand forms (30_encoding.md R64, R65; 44_stack.md R130): a register index through reg(), an 8-bit
immediate used exactly as fetched (LDI's b, which needs no operation), and the cell the stack pointer addresses. -/

namespace Sys2Proof.Machine

open Sys2Proof

/-- `reg(k)` of 30_encoding.md R65; `none` is Unspecified(RegIndex). -/
def regOperand (policy : IndexPolicy) (k : Byte) : Option RegIx :=
  if h : k.toNat < Config.nregs then some ⟨k.toNat, h⟩
  else
    match policy with
    | .refuse => none
    | .mask3 => some (Fin.ofNat Config.nregs (k.toNat % 8))

/-- Use one operand byte as a register index; nothing has been written when the check fails (30_encoding.md R65). -/
def withReg (k : Byte) (s : State) (body : RegIx → Result) : Result :=
  match regOperand s.cfg.regIndex k with
  | some i => body i
  | none => .fault .regIndex

/-- Use two operand bytes as register indices: both are checked before anything is written (30_encoding.md R65). -/
def withRegs (a b : Byte) (s : State) (body : RegIx → RegIx → Result) : Result :=
  withReg a s fun i => withReg b s fun j => body i j

/-- The stack pointer x[7] (10_state.md R22). -/
def State.sp (s : State) : Byte := s.reg spIx

/-- Where PUSH stores: the decremented stack pointer, modulo 256 (44_stack.md R131; 10_state.md R23). -/
def State.pushAddr (s : State) : Byte := BitVec.ofInt 8 ((s.sp.toNat : Int) - 1)

/-- Where POP loads: the stack pointer before its increment (44_stack.md R132). -/
def State.popAddr (s : State) : Byte := s.sp

/-- The stack pointer after POP's increment, modulo 256 (44_stack.md R132; 10_state.md R23). -/
def State.afterPop (s : State) : Byte := BitVec.ofNat 8 (s.sp.toNat + 1)

end Sys2Proof.Machine
end

