-- ==== Sys2Proof/Machine/Alu.lean ====
section
/-! DEFINITION. The arithmetic-logic unit (42_alu_arithmetic.md R110, R111): a request names an operation and two register
indices; the ALU reads x[a] and x[b] and writes x[a] or the flags. -/

namespace Sys2Proof.Machine

open Sys2Proof

/-- The operations an ALU request can name (42_alu_arithmetic.md R110). -/
inductive AluOp where
  | mul | add | sub | div | inc | dec | cmp
  /-- A request for any other operation, which has no defined semantics (60_exceptions.md R152; log 16). -/
  | unsupported
deriving DecidableEq, Repr

/-- What an ALU request does: it completes in a state, or it raises a fatal error having written nothing. -/
inductive AluOutcome where
  | done (s : State)
  | raise (cause : AbortCause)
deriving DecidableEq, Repr

/-- Exact product, then modulo 256 (R111, R112). -/
def mulResult (x y : Byte) : Byte := BitVec.ofNat 8 (x.toNat * y.toNat)

/-- Exact sum, then modulo 256 (R111, R113). -/
def addResult (x y : Byte) : Byte := BitVec.ofNat 8 (x.toNat + y.toNat)

/-- Exact difference, then its non-negative remainder modulo 256 (R111, R114). -/
def subResult (x y : Byte) : Byte := BitVec.ofInt 8 ((x.toNat : Int) - (y.toNat : Int))

/-- Floor of the exact quotient (R111, R115); requested only with a non-zero divisor. -/
def divResult (x y : Byte) : Byte := BitVec.ofNat 8 (x.toNat / y.toNat)

/-- One ALU request on registers i and j (j unused by INC and DEC). -/
def alu (op : AluOp) (i j : RegIx) (s : State) : AluOutcome :=
  match op with
  | .mul => .done (s.setReg i (mulResult (s.reg i) (s.reg j)))
  | .add => .done (s.setReg i (addResult (s.reg i) (s.reg j)))
  | .sub => .done (s.setReg i (subResult (s.reg i) (s.reg j)))
  | .div =>
    if s.reg j = 0#8 then .raise .divideByZero
    else .done (s.setReg i (divResult (s.reg i) (s.reg j)))
  | .inc => .done (s.setReg i (addResult (s.reg i) 1#8))
  | .dec => .done (s.setReg i (subResult (s.reg i) 1#8))
  | .cmp => .done (s.setFlags (compareFlags (s.reg i) (s.reg j)))
  | .unsupported => .raise .unsupportedAluOperation

/-- The end of a handler that made an ALU request: a completed request is followed by step 5; a fatal error takes the abort and step 5
is not reached (40_engine_cycle.md R80; 60_exceptions.md R156). -/
def finishAlu (ir : Byte) (s : State) : AluOutcome → Result
  | .done t => advance ir t
  | .raise cause => .next (s.abort cause)

/-- A handler that requests `op` on both operand registers. -/
def aluTwo (ir : Byte) (op : AluOp) (a b : Byte) (s : State) : Result :=
  withRegs a b s fun i j => finishAlu ir s (alu op i j s)

/-- A handler that requests `op` on the first operand register only. -/
def aluOne (ir : Byte) (op : AluOp) (a : Byte) (s : State) : Result :=
  withReg a s fun i => finishAlu ir s (alu op i i s)

end Sys2Proof.Machine
end

