-- ==== Sys2Proof/Machine/Arith.lean ====
section
/-! DEFINITION. The ALU arithmetic instructions MUL, SUB, DIV, INC, DEC, and ADD where EXPOSE_ADD dispatches it
(42_alu_arithmetic.md R112 to R117). -/

namespace Sys2Proof.Machine

open Sys2Proof

/-- MUL a, b (R112). -/
def execMul (a b : Byte) (s : State) : Result := aluTwo Op.mul.byte .mul a b s

/-- SUB a, b (R114). -/
def execSub (a b : Byte) (s : State) : Result := aluTwo Op.sub.byte .sub a b s

/-- DIV a, b: aborts when x[b] = 0 (R115). -/
def execDiv (a b : Byte) (s : State) : Result := aluTwo Op.div.byte .div a b s

/-- INC a (R116). -/
def execInc (a : Byte) (s : State) : Result := aluOne Op.inc.byte .inc a s

/-- DEC a (R117). -/
def execDec (a : Byte) (s : State) : Result := aluOne Op.dec.byte .dec a s

/-- ADD a, b as an instruction: reached from the byte 0xA0 only when EXPOSE_ADD = true (R113; 30_encoding.md R68; log 3). -/
def execAdd (a b : Byte) (s : State) : Result := aluTwo addByte .add a b s

end Sys2Proof.Machine
end

