-- ==== Sys2Proof/Machine/Compare.lean ====
section
/-! DEFINITION. CMP, the only writer of the flags (43_compare.md R121). -/

namespace Sys2Proof.Machine

open Sys2Proof

/-- CMP a, b (R121). -/
def execCmp (a b : Byte) (s : State) : Result := aluTwo Op.cmp.byte .cmp a b s

end Sys2Proof.Machine
end

