-- ==== Sys2Proof/Machine/Control.lean ====
section
/-! DEFINITION. JMP, JEQ, JNE: the handler sets pc in every arm and step 5 does nothing, bit 4 of their opcodes being set
(45_control_transfer.md R140 to R143). -/

namespace Sys2Proof.Machine

open Sys2Proof

/-- The taken arm: the target is the full 8-bit value of the register the operand selects (R140). -/
def jumpTo (a : Byte) (s : State) : Result :=
  withReg a s fun i => .next (s.setPc (s.reg i))

/-- The not-taken arm, pc <- p + 2, done by the handler (R142, R143); the operand is not used as an index. -/
def fallThrough (s : State) : Result := movePc 2 s

/-- JMP a (R141). -/
def execJmp (a : Byte) (s : State) : Result := jumpTo a s

/-- JEQ a: jump when FL.E = 1 (R142). -/
def execJeq (a : Byte) (s : State) : Result := if s.fl.e then jumpTo a s else fallThrough s

/-- JNE a: jump when FL.E = 0 (R143). -/
def execJne (a : Byte) (s : State) : Result := if s.fl.e then fallThrough s else jumpTo a s

end Sys2Proof.Machine
end

