-- ==== Sys2Proof/Machine/Stack.lean ====
section
/-! DEFINITION. PUSH and POP, the only instructions that access RAM as data (44_stack.md). Their two actions happen in the order
the spec writes them, each reading the register file as the previous action left it (92_eei_decisions.md D18; log 14). -/

namespace Sys2Proof.Machine

open Sys2Proof

/-- The effect of PUSH: decrement x[7], then store x[i], read after the decrement, at the new x[7] (R131). -/
def pushReg (i : RegIx) (s : State) : State :=
  let t := s.setReg spIx s.pushAddr
  t.writeByte t.sp (t.reg i)

/-- The effect of POP: load x[i] from the cell x[7] addresses, then increment x[7], read after that write (R132). -/
def popReg (i : RegIx) (s : State) : State :=
  let t := s.setReg i (s.readByte s.popAddr)
  t.setReg spIx t.afterPop

/-- PUSH a (R131). -/
def execPush (a : Byte) (s : State) : Result :=
  withReg a s fun i => advance Op.push.byte (pushReg i s)

/-- POP a (R132). -/
def execPop (a : Byte) (s : State) : Result :=
  withReg a s fun i => advance Op.pop.byte (popReg i s)

end Sys2Proof.Machine
end

