-- ==== Sys2Proof/Machine/System.lean ====
section
/-! DEFINITION. The system and immediate instructions HLT, LDI, PRN (41_system_and_immediate.md). Each meaning is steps 4 and 5 of
the cycle (40_engine_cycle.md R80); steps 1 to 3 are the engine's (Machine/Engine.lean). -/

namespace Sys2Proof.Machine

open Sys2Proof

/-- HLT: the halted flag, and the advance of step 5 still happens (R100). -/
def execHlt (s : State) : Result := advance Op.hlt.byte s.halt

/-- LDI a, b: x[a] <- b, the immediate exactly as fetched (R101; 30_encoding.md R64). -/
def execLdi (a b : Byte) (s : State) : Result :=
  withReg a s fun i => advance Op.ldi.byte (s.setReg i b)

/-- PRN a: append x[a] to the output stream (R102). -/
def execPrn (a : Byte) (s : State) : Result :=
  withReg a s fun i => advance Op.prn.byte (s.emit (s.reg i))

end Sys2Proof.Machine
end

