-- ==== Sys2Proof/Machine/Unknown.lean ====
section
/-! DEFINITION. Opcode bytes without a row in the dispatch table (30_encoding.md R68, R69; 40_engine_cycle.md R87). -/

namespace Sys2Proof.Machine

open Sys2Proof

/-- An unknown opcode: step 4 does nothing, step 5 is performed as for any byte, so C = 0 advances by the decoded count and
C = 1 leaves the whole state as it is, a livelock (40_engine_cycle.md R87; log 6). -/
def execUnknown (ir : Byte) (s : State) : Result := advance ir s

/-- A byte with no row in the table of 30_encoding.md R66: ADD when EXPOSE_ADD = true and the byte is 0xA0, else unknown (R68). -/
def execUnlisted (ir opa opb : Byte) (s : State) : Result :=
  if s.cfg.exposeAdd = true ∧ ir = addByte then execAdd opa opb s else execUnknown ir s

end Sys2Proof.Machine
end

