-- ==== Sys2Proof/Machine/Engine.lean ====
section
/-! DEFINITION. The execution engine: one pass of the per-cycle protocol (40_engine_cycle.md R80). -/

namespace Sys2Proof.Machine

open Sys2Proof

/-- The three bytes of a cycle's fetch: the opcode at pc and the two cells after it, addresses modulo 256 (steps 1 and 2; under
refuse the guard of `cycle` keeps the addresses in range). -/
def State.fetched (s : State) : List Byte :=
  [s.readByte s.pc, s.readByte (s.pc + 1#8), s.readByte (s.pc + 2#8)]

/-- The operand reads run past address 255: pc is 254 or 255 (40_engine_cycle.md R82). -/
def fetchOverruns (s : State) : Bool := decide (255 < s.pc.toNat + 2)

/-- Steps 3 to 5 on the three fetched bytes: a row's meaning, or an unlisted byte. `truncated` cannot arise from three bytes; the engine
would have no opcode row to run, so it treats the byte as unlisted. -/
def dispatch (ir opa opb : Byte) (s : State) : Result :=
  match decode [ir, opa, opb] with
  | .ok (i, _) => exec i s
  | .error _ => execUnlisted ir opa opb s

/-- One pass of the protocol of 40_engine_cycle.md R80, from a Running state: the overrun check of step 2 comes first, whatever the
opcode (R82, R91). -/
def cycle (s : State) : Result :=
  if fetchOverruns s = true ∧ s.cfg.addrOverrun = .refuse then .fault .addrOverrun
  else dispatch (s.readByte s.pc) (s.readByte (s.pc + 1#8)) (s.readByte (s.pc + 2#8)) s

/-- Store a table word's three bytes where the engine fetches its next instruction. -/
def placeTableWord (nbits w : Nat) (s : State) : State :=
  ((s.writeByte s.pc (tableByte nbits w 0)).writeByte (s.pc + 1#8) (tableByte nbits w 1)).writeByte
    (s.pc + 2#8) (tableByte nbits w 2)

end Sys2Proof.Machine
end

