-- ==== Sys2Proof/Machine/Step.lean ====
section
/-! DEFINITION. One step of the machine from any state (40_engine_cycle.md R89), and where a table word is placed for the next step. -/

namespace Sys2Proof.Machine

open Sys2Proof

/-- One step. Running: one cycle. Waiting: the host's start, the only move left before a run (70_reset_and_hazards.md R172; log 10).
Halted and Aborted are terminal: no cycle is executed and nothing changes (40_engine_cycle.md R89; log 9). -/
def step (s : State) : Host.Outcome State Fault Refusal :=
  match s.run with
  | .running => cycle s
  | .waiting => .next s.start
  | .halted => .next s
  | .aborted _ => .next s

/-- The host's load of one instruction at pc, and its start (70_reset_and_hazards.md R171, R172; log 10), so that the next step runs
exactly that instruction. -/
def State.withFetchWord (s : State) (nbits w : Nat) : State := (placeTableWord nbits w s).start

end Sys2Proof.Machine
end

