-- ==== Sys2Proof/Machine/HostPort.lean ====
section
/-! DEFINITION. The host's side of the block (10_state.md R36): load, start, the status and output it reads, the trace hook. -/

namespace Sys2Proof.Machine

open Sys2Proof

/-- Byte i of the image to address base + i, in order (70_reset_and_hazards.md R171). -/
def writeImage (base : Nat) : List Byte → Memory → Memory
  | [], m => m
  | v :: image, m => writeImage (base + 1) image (m.write base v)

/-- `load(image)`: at most 256 bytes from LOAD_BASE = 0, only after reset and before start; `none` is a move the host does not
have (10_state.md R36 (2); 92_eei_decisions.md D15). DESIGN CHOICE (log 26): the spec does not say whether the host may load again
before start; this operation accepts any number of loads while waiting, and a cell beyond a later, shorter image keeps what it held,
which is RAM_FILL only if no earlier load wrote it. -/
def hostLoad (image : List Byte) (s : State) : Option State :=
  if s.run = .waiting ∧ image.length ≤ Config.memSize then some { s with mem := writeImage 0 image s.mem } else none

/-- `start`: once per reset (10_state.md R36 (3); 70_reset_and_hazards.md R172). -/
def hostStart (s : State) : Option State :=
  if s.run = .waiting then some s.start else none

/-- The halted flag of the source is (run = Halted) (10_state.md R20, R27). -/
def State.haltedFlag (s : State) : Bool := decide (s.run = .halted)

/-- The numeric cause code a status port shows (60_exceptions.md R155). -/
def RunState.causeCode : RunState → Nat
  | .waiting => 0
  | .running => 0
  | .halted => 0
  | .aborted .divideByZero => 1
  | .aborted .unsupportedAluOperation => 2

/-- A decimal digit. -/
def digit (n : Nat) : Char := Char.ofNat (48 + n % 10)

/-- The decimal numeral of an unsigned byte, without sign, leading zeros or padding (41_system_and_immediate.md R102). -/
def decimal (v : Byte) : List Char :=
  let n := v.toNat
  if n < 10 then [digit n]
  else if n < 100 then [digit (n / 10), digit n]
  else [digit (n / 100), digit (n / 10), digit n]

/-- What the host prints for the output stream: one line per value (10_state.md R30; 41_system_and_immediate.md R102; log 17). -/
def renderOut : List Byte → List Char
  | [] => []
  | v :: vs => decimal v ++ ['\n'] ++ renderOut vs

/-- The content of the optional trace hook (10_state.md R36 (6); the format is not in the source; log 19). -/
structure TraceRecord where
  pc  : Byte
  ir  : Byte
  opa : Byte
  opb : Byte
  x   : Vector Byte 8
deriving DecidableEq, Repr

/-- The trace of the cycle that starts in this state, taken after the fetch and before the handler; none where no cycle is executed or
its operand reads overrun (92_eei_decisions.md D27). -/
def State.traceRecord (s : State) : Option TraceRecord :=
  if s.run = .running ∧ ¬ (fetchOverruns s = true ∧ s.cfg.addrOverrun = .refuse) then
    some { pc := s.pc, ir := s.readByte s.pc, opa := s.readByte (s.pc + 1#8), opb := s.readByte (s.pc + 2#8), x := s.x }
  else none

end Sys2Proof.Machine
end

