-- ==== Sys2Proof/Machine/Image.lean ====
section
/-! DEFINITION. The program image text format, host side (30_encoding.md R72 to R74): one byte a line. -/

namespace Sys2Proof.Machine

open Sys2Proof

/-- What one line of an image file yields. -/
inductive ImageLine where
  | byte (v : Byte)
  /-- Blank, comment only, or not recognizably binary: skipped (R73). -/
  | skip
  /-- A case the source does not settle (R73; 92_eei_decisions.md D22): the host model refuses such an image (log 18). -/
  | unsettled
deriving DecidableEq, Repr

/-- The line truncated at its first `#` (R73). -/
def stripComment (line : List Char) : List Char := line.takeWhile (fun c => c != '#')

/-- A `0` or a `1`. -/
def isBinaryDigit (c : Char) : Bool := c == '0' || c == '1'

/-- White space of an image line. DESIGN CHOICE (log 18): the spec names no set of white-space characters (R73;
92_eei_decisions.md D22), so this one is wide: tab, line feed, vertical tab, form feed, carriage return, space, the four ASCII
separators, and Unicode's own white space. -/
def isLineSpace (c : Char) : Bool :=
  let n := c.toNat
  (decide (9 ≤ n) && decide (n ≤ 13)) || (decide (28 ≤ n) && decide (n ≤ 32)) || n == 0x85 || n == 0xA0 || n == 0x1680 ||
    (decide (0x2000 ≤ n) && decide (n ≤ 0x200A)) || n == 0x2028 || n == 0x2029 || n == 0x202F || n == 0x205F || n == 0x3000

/-- An unsigned base-2 integer, the first character most significant (R72). -/
def binaryValue (digits : List Char) : Nat :=
  digits.foldl (fun n c => 2 * n + (if c == '1' then 1 else 0)) 0

/-- A line that begins with a binary digit: its first 8 characters are one byte; anything else there is not settled (R73). -/
def binaryLine (text : List Char) : ImageLine :=
  let first := text.take 8
  if first.length = 8 ∧ first.all isBinaryDigit = true then .byte (BitVec.ofNat 8 (binaryValue first)) else .unsettled

/-- One line (R73). A line whose first character is white space is unsettled only if stripping would make it begin with a binary
digit (DESIGN CHOICE, log 18). -/
def imageLine (line : List Char) : ImageLine :=
  match stripComment line with
  | [] => .skip
  | c :: text =>
    if isBinaryDigit c then binaryLine (c :: text)
    else
      match (c :: text).dropWhile isLineSpace with
      | [] => .skip
      | d :: _ => if isLineSpace c && isBinaryDigit d then .unsettled else .skip

/-- The bytes of an image's lines in order; none if a line is not settled. -/
def imageBytes : List (List Char) → Option (List Byte)
  | [] => some []
  | line :: lines =>
    match imageLine line, imageBytes lines with
    | .byte v, some vs => some (v :: vs)
    | .skip, some vs => some vs
    | .unsettled, _ => none
    | _, none => none

/-- Load an image file into a machine after reset (R72, R73; 10_state.md R36). -/
def hostLoadText (lines : List (List Char)) (s : State) : Option State :=
  match imageBytes lines with
  | some image => hostLoad image s
  | none => none

end Sys2Proof.Machine
end

