-- ==== Sys2Proof/Safety.lean ====
section
/-! DEFINITION. What counts as a safe run: no unspecified outcome, the ends of a run (40_engine_cycle.md R90), the livelock
(R87), the machine's invariant, and the envelope (70_reset_and_hazards.md R181). -/

namespace Sys2Proof.Machine

open Sys2Proof

/-- The operand byte `k` selects register `i` under the state's REG_INDEX_POLICY (30_encoding.md R65). -/
abbrev State.selects (s : State) (k : Byte) (i : RegIx) : Prop := regOperand s.cfg.regIndex k = some i

/-- An advance of `n` stays below address 256 or wraps (40_engine_cycle.md R86). -/
abbrev State.canAdvance (s : State) (n : Nat) : Prop := s.pc.toNat + n ≤ 255 ∨ s.cfg.addrOverrun = .wrap

/-- A Running state whose operand reads do not overrun: the cycle reaches dispatch (40_engine_cycle.md R82). -/
abbrev State.canFetch (s : State) : Prop := s.run = .running ∧ s.canAdvance 2

/-- The byte has no handler: no row of the table, and not ADD's byte where ADD is exposed (30_encoding.md R68, R69). -/
abbrev State.unknownByte (s : State) (ir : Byte) : Prop :=
  (∀ o : Op, o.byte ≠ ir) ∧ ¬ (s.cfg.exposeAdd = true ∧ ir = addByte)

/-- A step answers a next state: not an Unspecified outcome. -/
def Result.isNext : Result → Bool
  | .next _ => true
  | .fault _ => false
  | .refused _ => false

/-- The run has ended normally (40_engine_cycle.md R90). -/
def State.normalEnd (s : State) : Bool := decide (s.run = .halted)

/-- The run has ended abnormally (40_engine_cycle.md R90). -/
def State.abnormalEnd (s : State) : Bool :=
  match s.run with
  | .aborted _ => true
  | .waiting => false
  | .running => false
  | .halted => false

/-- A Running state whose cycle changes nothing: it repeats forever (40_engine_cycle.md R87). -/
def State.livelocked (s : State) : Prop := s.run = .running ∧ step s = .next s

/-- What every step keeps: memory canonical, never two flags set (10_state.md R28), and no UnsupportedAluOperation
(60_exceptions.md R152). -/
structure State.Inv (s : State) : Prop where
  memory : s.mem.wf = true
  flags  : s.fl = Flags.clear ∨ s.fl.exactlyOne = true
  cause  : s.run ≠ .aborted .unsupportedAluOperation

/-- The history the envelope speaks of: the image length, the addresses PUSH has stored to, and whether a clause has failed. -/
structure EnvelopeWatch where
  imageLen : Nat
  stored   : List Nat
  ok       : Bool
deriving DecidableEq, Repr

/-- The addresses a cycle reads as opcode or operand: all three (20_memory.md R41; log 15). -/
def fetchAddrs (s : State) : List Nat := [s.pc.toNat, (s.pc + 1#8).toNat, (s.pc + 2#8).toNat]

/-- The watch after the cycle that starts in `s`: clauses (i), (ii) and (iii) of 70_reset_and_hazards.md R181. -/
def EnvelopeWatch.observe (w : EnvelopeWatch) (s : State) : EnvelopeWatch :=
  let fetchOk := (fetchAddrs s).all (fun a => !w.stored.contains a)
  match decode s.fetched with
  | .ok (.push _, _) =>
    { w with
      stored := s.pushAddr.toNat :: w.stored
      ok := w.ok && fetchOk && decide (s.sp ≠ 0#8) && decide (w.imageLen ≤ s.pushAddr.toNat) }
  | .ok (.pop _, _) => { w with ok := w.ok && fetchOk && decide (s.sp ≠ 255#8) }
  | _ => { w with ok := w.ok && fetchOk }

/-- The next `k` steps from `s` stay inside the envelope; a run that ends or has no specified next state is judged up to there. -/
def insideEnvelope : Nat → EnvelopeWatch → State → Bool
  | 0, w, s => w.ok && !w.stored.contains s.pc.toNat
  | k + 1, w, s =>
    if s.run = .running then
      match step s with
      | .next t => insideEnvelope k (w.observe s) t
      | .fault _ => (w.observe s).ok
      | .refused _ => (w.observe s).ok
    else if s.run = .waiting then insideEnvelope k w s.start
    else w.ok && !w.stored.contains s.pc.toNat

end Sys2Proof.Machine
end

