-- ==== Sys2Proof/WellFormed.lean ====
section
/-! DEFINITION. Well-formed instructions: every operand byte that the instruction uses as a register names one of the eight
slots (30_encoding.md R65). The encoding admits every byte (R71), so decoding never asks for this; it is what makes an instruction
free of the RegIndex condition under both policies (log 12). -/

namespace Sys2Proof

/-- The operand byte `k` itself is the index of one of the 8 slots (30_encoding.md R65). -/
def namesRegister (k : Byte) : Bool := decide (k.toNat ≤ 7)

/-- One check per operand position that 30_encoding.md R65 lists as a register (LDI's b is an immediate). -/
def Instr.wellFormed : Instr → Bool
  | .hlt => true
  | .ldi a _ => namesRegister a
  | .prn a => namesRegister a
  | .mul a b => namesRegister a && namesRegister b
  | .sub a b => namesRegister a && namesRegister b
  | .div a b => namesRegister a && namesRegister b
  | .inc a => namesRegister a
  | .dec a => namesRegister a
  | .cmp a b => namesRegister a && namesRegister b
  | .push a => namesRegister a
  | .pop a => namesRegister a
  | .jmp a => namesRegister a
  | .jeq a => namesRegister a
  | .jne a => namesRegister a

end Sys2Proof
end

