-- ==== Sys2Proof/Certificates/Slice0/Obligations.lean ====
section
/-! DEFINITION. The statements for the provers, each from a rule of spec/ (OBLIGATIONS.json names it). Terms used:
`s.selects k i`, the operand byte k selects register i (30_encoding.md R65); `s.canAdvance n`, pc + n stays in range or wraps
(40_engine_cycle.md R86); `s.canFetch`, Running and the operand reads do not overrun (R82). -/

open Sys2Proof Sys2Proof.Machine

/-! ### The machine after reset -/

/-- 10_state.md section 7: the reset table. The values of run, mem and out are the spec's decisions D8, D9, D16; cfg is the model's
(log 1). -/
def Obligations.ResetLeavesTheTableOfResetValues : Prop :=
  (∀ i : RegIx, i.val < 7 → State.reset.reg i = 0#8) ∧ State.reset.reg 7 = 255#8 ∧ State.reset.pc = 0#8 ∧
    State.reset.fl = { l := false, g := false, e := false } ∧ State.reset.haltedFlag = false ∧
    State.reset.run = .waiting ∧ (∀ a : Byte, State.reset.readByte a = 0x00#8) ∧ State.reset.out = [] ∧
    State.reset.cfg = { exposeAdd := false, addrOverrun := .refuse, regIndex := .refuse }

/-- The invariant of `EveryStepKeepsInvariant` holds after reset. -/
def Obligations.ResetMeetsInvariant : Prop := State.reset.Inv

/-! ### Encoding -/

/-- Words written out from the table of 30_encoding.md R66. -/
def Obligations.WrittenOutWordsDecode : Prop :=
  decode [0x01#8] = .ok (.hlt, []) ∧ decode [0x82#8, 0x00#8, 0x08#8] = .ok (.ldi 0x00#8 0x08#8, []) ∧
    decode [0xA2#8, 0x00#8, 0x01#8] = .ok (.mul 0x00#8 0x01#8, []) ∧
    decode [0xA7#8, 0x05#8, 0x06#8] = .ok (.cmp 0x05#8 0x06#8, []) ∧
    decode [0x45#8, 0x07#8, 0xFF#8] = .ok (.push 0x07#8, [0xFF#8]) ∧
    decode [0x56#8, 0x02#8] = .ok (.jne 0x02#8, []) ∧
    decode [0xA0#8, 0x00#8, 0x01#8] = .error (.unknownOpcode 0xA0#8) ∧
    decode [0x00#8] = .error (.unknownOpcode 0x00#8)

/-- Bytes decode to an instruction exactly when they begin with its encoding, for every operand byte. -/
def Obligations.DecodeAndEncodeAgree : Prop :=
  ∀ (bytes rest : List Byte) (i : Instr), decode bytes = .ok (i, rest) ↔ bytes = encode i ++ rest

/-- Bytes are rejected as an unknown opcode exactly when the first one has no row, and as truncated only when the operand bytes that
bits 7:6 declare are missing. -/
def Obligations.DecodeRejectsByName : Prop :=
  (∀ (ir k : Byte) (rest : List Byte),
      decode (ir :: rest) = .error (.unknownOpcode k) ↔ k = ir ∧ ∀ o : Op, o.byte ≠ ir) ∧
    (∀ (ir : Byte) (rest : List Byte),
      decode (ir :: rest) = .error .truncated ↔ (∃ o : Op, o.byte = ir) ∧ rest.length < ir.toNat / 64)

/-- `reg(k)`: k itself when it is at most 7; above 7 nothing under refuse (D6), and its three low bits under mask3. -/
def Obligations.RegOperandSelects : Prop :=
  ∀ (p : IndexPolicy) (k : Byte) (i : RegIx),
    regOperand p k = some i ↔ i.val = k.toNat ∨ (p = .mask3 ∧ i.val = k.toNat % 8)

/-! ### The cycle -/

/-- A Running step whose operand reads do not overrun is exec of the instruction the three bytes at pc decode to; nothing stands around
exec. -/
def Obligations.StepRunsTheDecodedInstruction : Prop :=
  ∀ (s : State) (i : Instr) (rest : List Byte), s.canFetch →
    decode [s.readByte s.pc, s.readByte (s.pc + 1#8), s.readByte (s.pc + 2#8)] = .ok (i, rest) →
    step s = exec i s

/-- A table word placed where the machine fetches, with the host's start, is what the next step runs (log 10). -/
def Obligations.PlacedTableWordIsRunNext : Prop :=
  ∀ (nbits w : Nat) (i : Instr) (s : State), s.mem.wf = true → s.canAdvance 2 → decodeTableWord nbits w = some i →
    step (s.withFetchWord nbits w) = exec i (s.withFetchWord nbits w) ∧
      (s.withFetchWord nbits w).x = s.x ∧ (s.withFetchWord nbits w).pc = s.pc ∧ (s.withFetchWord nbits w).fl = s.fl ∧
      (s.withFetchWord nbits w).out = s.out ∧ (s.withFetchWord nbits w).cfg = s.cfg

/-- A byte with no handler: with bit 4 clear pc advances by bits 7:6 plus one, or overruns under refuse; with bit 4 set the whole state
is as before (D7). -/
def Obligations.UnknownOpcodeIsANoOp : Prop :=
  ∀ s : State, s.canFetch → s.unknownByte (s.readByte s.pc) →
    ((s.readByte s.pc).toNat / 16 % 2 = 1 → step s = .next s) ∧
    ((s.readByte s.pc).toNat / 16 % 2 = 0 → s.canAdvance ((s.readByte s.pc).toNat / 64 + 1) →
      step s = .next { s with pc := s.pc + BitVec.ofNat 8 ((s.readByte s.pc).toNat / 64 + 1) }) ∧
    ((s.readByte s.pc).toNat / 16 % 2 = 0 → ¬ s.canAdvance ((s.readByte s.pc).toNat / 64 + 1) →
      step s = .fault .addrOverrun)

/-- An unknown opcode with bit 4 set repeats forever: any number of steps leaves the state as it is (D7). -/
def Obligations.UnknownOpcodeWithBitFourLivelocks : Prop :=
  ∀ (s : State) (n : Nat), s.canFetch → s.unknownByte (s.readByte s.pc) →
    (s.readByte s.pc).toNat / 16 % 2 = 1 → Host.Core.run Sys2Proof.core n s = .next s

/-- At pc = 254 or 255 under refuse the operand reads overrun before anything else, whatever the bytes are (D5); under wrap they never
do. -/
def Obligations.OperandReadsOverrunAtTheTop : Prop :=
  ∀ s : State, s.run = .running →
    (s.cfg.addrOverrun = .refuse → 254 ≤ s.pc.toNat → step s = .fault .addrOverrun) ∧
    (s.cfg.addrOverrun = .wrap → ∀ (i : Instr) (rest : List Byte),
      decode [s.readByte s.pc, s.readByte (s.pc + 1#8), s.readByte (s.pc + 2#8)] = .ok (i, rest) → step s = exec i s)

/-- An advance beyond 255 under refuse is Unspecified(AddrOverrun) (D5): every instruction that reaches step 5 with bit 4 clear, and the
not-taken arms of JEQ and JNE. -/
def Obligations.AdvanceOverrunStops : Prop :=
  ∀ (i : Instr) (s : State), s.cfg.addrOverrun = .refuse → 255 < s.pc.toNat + (i.operands.length + 1) →
    (i.op ≠ .jmp → i.op ≠ .jeq → i.op ≠ .jne → (s.cfg.regIndex = .mask3 ∨ i.wellFormed = true) →
      (∀ (a b : Byte) (j : RegIx), i = .div a b → s.selects b j → s.reg j ≠ 0#8) →
      exec i s = .fault .addrOverrun) ∧
    (i.op = .jeq → s.fl.e = false → exec i s = .fault .addrOverrun) ∧
    (i.op = .jne → s.fl.e = true → exec i s = .fault .addrOverrun)

/-- Step 5: with bit 4 clear pc becomes p + N + 1, also after HLT, unless the handler aborted; with bit 4 set the engine adds
nothing to what the handler did. -/
def Obligations.AdvanceFollowsBitFour : Prop :=
  ∀ s t : State, s.canFetch → step s = .next t →
    ((s.readByte s.pc).toNat / 16 % 2 = 0 → (∀ c, t.run ≠ .aborted c) →
      t.pc = s.pc + BitVec.ofNat 8 ((s.readByte s.pc).toNat / 64 + 1)) ∧
    ((s.readByte s.pc) = 0x01#8 → t.pc = s.pc + 1#8 ∧ t.run = .halted) ∧
    ((s.readByte s.pc).toNat / 16 % 2 = 1 →
      t.pc = s.pc ∨ (s.readByte s.pc = 0x55#8 ∨ s.readByte s.pc = 0x56#8) ∧ t.pc = s.pc + 2#8 ∨
        ∃ i, s.selects (s.readByte (s.pc + 1#8)) i ∧ t.pc = s.reg i)

/-- Halted and Aborted are terminal: no cycle is executed and nothing changes (the idle step is the model's choice, log 9). -/
def Obligations.HaltedAndAbortedAreTerminal : Prop :=
  ∀ (s : State) (n : Nat), (s.run = .halted ∨ ∃ c, s.run = .aborted c) →
    Host.Core.run Sys2Proof.core n s = .next s

/-- A step from waiting is the host's start and executes no cycle (log 10). -/
def Obligations.WaitingStepIsTheStart : Prop :=
  ∀ s : State, s.run = .waiting → step s = .next { s with run := .running } ∧ hostStart s = some { s with run := .running }

/-! ### System and immediate instructions -/

/-- HLT: run = Halted, pc = p + 1, nothing else changes. -/
def Obligations.HltHaltsAndAdvances : Prop :=
  ∀ s : State, s.canAdvance 1 → exec .hlt s = .next { s with run := .halted, pc := s.pc + 1#8 }

/-- LDI a, b: x[a] = b as fetched. -/
def Obligations.LdiLoadsTheImmediate : Prop :=
  ∀ (a b : Byte) (s : State),
    (∀ i, s.selects a i → s.canAdvance 3 → exec (.ldi a b) s = .next { s with x := s.x.set i b, pc := s.pc + 3#8 }) ∧
    (s.cfg.regIndex = .refuse → 7 < a.toNat → exec (.ldi a b) s = .fault .regIndex)

/-- PRN a: the value of x[a] is appended to the output stream. -/
def Obligations.PrnAppendsTheRegister : Prop :=
  ∀ (a : Byte) (s : State),
    (∀ i, s.selects a i → s.canAdvance 2 → exec (.prn a) s = .next { s with out := s.out ++ [s.reg i], pc := s.pc + 2#8 }) ∧
    (s.cfg.regIndex = .refuse → 7 < a.toNat → exec (.prn a) s = .fault .regIndex)

/-! ### ALU arithmetic -/

/-- MUL a, b: the product modulo 256. -/
def Obligations.MulStoresTheProductModulo256 : Prop :=
  ∀ (a b : Byte) (s : State),
    (∀ i j, s.selects a i → s.selects b j → s.canAdvance 3 →
      exec (.mul a b) s = .next { s with
        x := s.x.set i (BitVec.ofNat 8 ((s.reg i).toNat * (s.reg j).toNat % 256)), pc := s.pc + 3#8 }) ∧
    (s.cfg.regIndex = .refuse → (7 < a.toNat ∨ 7 < b.toNat) → exec (.mul a b) s = .fault .regIndex)

/-- SUB a, b: the difference modulo 256, x - y + 256 when x is below y. -/
def Obligations.SubStoresTheDifferenceModulo256 : Prop :=
  ∀ (a b : Byte) (s : State),
    (∀ i j, s.selects a i → s.selects b j → s.canAdvance 3 →
      exec (.sub a b) s = .next { s with
        x := s.x.set i (BitVec.ofNat 8 (if (s.reg i).toNat < (s.reg j).toNat
          then (s.reg i).toNat + 256 - (s.reg j).toNat else (s.reg i).toNat - (s.reg j).toNat)), pc := s.pc + 3#8 }) ∧
    (s.cfg.regIndex = .refuse → (7 < a.toNat ∨ 7 < b.toNat) → exec (.sub a b) s = .fault .regIndex)

/-- DIV a, b: the floor of the quotient when x[b] is not 0; when it is 0 the run is aborted and nothing else changes (D11), for every
dividend and at every pc. -/
def Obligations.DivStoresTheQuotientOrAborts : Prop :=
  ∀ (a b : Byte) (s : State),
    (∀ i j, s.selects a i → s.selects b j → s.reg j ≠ 0#8 → s.canAdvance 3 →
      exec (.div a b) s = .next { s with
        x := s.x.set i (BitVec.ofNat 8 ((s.reg i).toNat / (s.reg j).toNat)), pc := s.pc + 3#8 }) ∧
    (∀ i j, s.selects a i → s.selects b j → s.reg j = 0#8 →
      exec (.div a b) s = .next { s with run := .aborted .divideByZero }) ∧
    (s.cfg.regIndex = .refuse → (7 < a.toNat ∨ 7 < b.toNat) → exec (.div a b) s = .fault .regIndex)

/-- INC a: plus one, 255 becomes 0. -/
def Obligations.IncAddsOneModulo256 : Prop :=
  ∀ (a : Byte) (s : State),
    (∀ i, s.selects a i → s.canAdvance 2 →
      exec (.inc a) s = .next { s with
        x := s.x.set i (if s.reg i = 255#8 then 0#8 else BitVec.ofNat 8 ((s.reg i).toNat + 1)), pc := s.pc + 2#8 }) ∧
    (s.cfg.regIndex = .refuse → 7 < a.toNat → exec (.inc a) s = .fault .regIndex)

/-- DEC a: minus one, 0 becomes 255. -/
def Obligations.DecSubtractsOneModulo256 : Prop :=
  ∀ (a : Byte) (s : State),
    (∀ i, s.selects a i → s.canAdvance 2 →
      exec (.dec a) s = .next { s with
        x := s.x.set i (if s.reg i = 0#8 then 255#8 else BitVec.ofNat 8 ((s.reg i).toNat - 1)), pc := s.pc + 2#8 }) ∧
    (s.cfg.regIndex = .refuse → 7 < a.toNat → exec (.dec a) s = .fault .regIndex)

/-- ADD, the ALU operation without an opcode: an ALU request stores the sum modulo 256; dispatched from 0xA0 exactly when EXPOSE_ADD is
true (D3, log 3), and an unknown opcode otherwise. Its stops are the spec's decisions: RegIndex on an operand above 7 (D6, log 5) and
AddrOverrun on an advance beyond 255 (D5, log 4), each under its refuse policy. -/
def Obligations.AddIsDispatchedOnlyWhenExposed : Prop :=
  (∀ (i j : RegIx) (s : State),
    alu .add i j s = .done { s with x := s.x.set i (BitVec.ofNat 8 (((s.reg i).toNat + (s.reg j).toNat) % 256)) }) ∧
  (∀ (s : State) (i j : RegIx), s.canFetch → s.canAdvance 3 → s.readByte s.pc = 0xA0#8 → s.cfg.exposeAdd = true →
    s.selects (s.readByte (s.pc + 1#8)) i → s.selects (s.readByte (s.pc + 2#8)) j →
    step s = .next { s with
      x := s.x.set i (BitVec.ofNat 8 (((s.reg i).toNat + (s.reg j).toNat) % 256)), pc := s.pc + 3#8 }) ∧
  (∀ s : State, s.canFetch → s.readByte s.pc = 0xA0#8 → s.cfg.exposeAdd = true → s.cfg.regIndex = .refuse →
    (7 < (s.readByte (s.pc + 1#8)).toNat ∨ 7 < (s.readByte (s.pc + 2#8)).toNat) → step s = .fault .regIndex) ∧
  (∀ (s : State) (i j : RegIx), s.canFetch → ¬ s.canAdvance 3 → s.readByte s.pc = 0xA0#8 → s.cfg.exposeAdd = true →
    s.selects (s.readByte (s.pc + 1#8)) i → s.selects (s.readByte (s.pc + 2#8)) j → step s = .fault .addrOverrun) ∧
  (∀ s : State, s.canFetch → s.canAdvance 3 → s.readByte s.pc = 0xA0#8 → s.cfg.exposeAdd = false →
    step s = .next { s with pc := s.pc + 3#8 })

/-- The ALU raises UnsupportedAluOperation for a request outside its set, DivideByZero exactly for a zero divisor, and nothing else; a handler
whose request raises writes only the run state (D11). -/
def Obligations.AluErrorsAbortPrecisely : Prop :=
  ∀ (ir : Byte) (op : AluOp) (i j : RegIx) (s : State),
    (∀ c, alu op i j s = .raise c ↔
      (op = .div ∧ s.reg j = 0#8 ∧ c = .divideByZero) ∨ (op = .unsupported ∧ c = .unsupportedAluOperation)) ∧
    (∀ c, alu op i j s = .raise c → finishAlu ir s (alu op i j s) = .next { s with run := .aborted c })

/-! ### Compare -/

/-- CMP a, b: exactly the unsigned relation of x[a] to x[b] is set, the other two flags cleared. -/
def Obligations.CmpSetsTheUnsignedRelation : Prop :=
  ∀ (a b : Byte) (s : State),
    (∀ i j, s.selects a i → s.selects b j → s.canAdvance 3 →
      exec (.cmp a b) s = .next { s with
        fl := { l := decide ((s.reg i).toNat < (s.reg j).toNat), g := decide ((s.reg j).toNat < (s.reg i).toNat),
                e := decide (s.reg i = s.reg j) }, pc := s.pc + 3#8 }) ∧
    (s.cfg.regIndex = .refuse → (7 < a.toNat ∨ 7 < b.toNat) → exec (.cmp a b) s = .fault .regIndex)

/-! ### Stack -/

/-- PUSH a: x[7] - 1 modulo 256 becomes the pointer and the cell there takes x[a], read after the decrement (D18 for a = 7). -/
def Obligations.PushDecrementsThenStores : Prop :=
  ∀ (a : Byte) (s : State),
    (∀ i, s.selects a i → s.canAdvance 2 →
      exec (.push a) s = .next { s with
        x := s.x.set 7 (s.reg 7 - 1#8),
        mem := s.mem.write (s.reg 7 - 1#8).toNat (if i = 7 then s.reg 7 - 1#8 else s.reg i),
        pc := s.pc + 2#8 }) ∧
    (s.cfg.regIndex = .refuse → 7 < a.toNat → exec (.push a) s = .fault .regIndex)

/-- In a canonical memory the pushed byte is what the cell reads as afterwards, and every other cell reads as before. That
PUSH R7 stores the already decremented pointer is the spec's reading D18 (log 14, DEDUCED). -/
def Obligations.PushedByteIsReadBack : Prop :=
  ∀ (a : Byte) (i : RegIx) (s t : State), s.mem.wf = true → s.selects a i → exec (.push a) s = .next t →
    t.readByte s.pushAddr = (if i = 7 then s.pushAddr else s.reg i) ∧ t.sp = s.pushAddr ∧
      (∀ k : Byte, k ≠ s.pushAddr → t.readByte k = s.readByte k) ∧ t.mem.wf = true

/-- POP a: x[a] takes the cell x[7] addresses, then x[7], read after that write, is incremented modulo 256 (D18 for a = 7). -/
def Obligations.PopLoadsThenIncrements : Prop :=
  ∀ (a : Byte) (s : State),
    (∀ i, s.selects a i → s.canAdvance 2 →
      exec (.pop a) s = .next { s with
        x := if i = 7 then s.x.set 7 (s.readByte (s.reg 7) + 1#8)
             else (s.x.set i (s.readByte (s.reg 7))).set 7 (s.reg 7 + 1#8),
        pc := s.pc + 2#8 }) ∧
    (s.cfg.regIndex = .refuse → 7 < a.toNat → exec (.pop a) s = .fault .regIndex)

/-- PUSH then POP on the same register gives every register its value back, register 7 as operand included, and changes no cell but the
one pushed to. The source states the property; that it also holds for register 7 is the spec's derivation from its reading D18
(log 14, DEDUCED). -/
def Obligations.PushThenPopRestoresRegisters : Prop :=
  ∀ (a : Byte) (i : RegIx) (s : State), s.mem.wf = true → s.selects a i → s.canAdvance 4 →
    ∃ t u, exec (.push a) s = .next t ∧ exec (.pop a) t = .next u ∧ (∀ k, u.reg k = s.reg k) ∧
      u.fl = s.fl ∧ u.run = s.run ∧ u.out = s.out ∧ u.pc = s.pc + 4#8 ∧
      ∀ k : Byte, k ≠ s.pushAddr → u.readByte k = s.readByte k

/-! ### Control transfer -/

/-- JMP a: pc = x[a], whatever the value. -/
def Obligations.JmpGoesToTheRegister : Prop :=
  ∀ (a : Byte) (s : State),
    (∀ i, s.selects a i → exec (.jmp a) s = .next { s with pc := s.reg i }) ∧
    (s.cfg.regIndex = .refuse → 7 < a.toNat → exec (.jmp a) s = .fault .regIndex)

/-- JEQ a: taken when Equal is set; else p + 2 for every operand byte, which is then no index (D6). -/
def Obligations.JeqJumpsWhenEqualIsSet : Prop :=
  ∀ (a : Byte) (s : State),
    (∀ i, s.fl.e = true → s.selects a i → exec (.jeq a) s = .next { s with pc := s.reg i }) ∧
    (s.fl.e = false → s.canAdvance 2 → exec (.jeq a) s = .next { s with pc := s.pc + 2#8 }) ∧
    (s.fl.e = true → s.cfg.regIndex = .refuse → 7 < a.toNat → exec (.jeq a) s = .fault .regIndex)

/-- JNE a: taken when Equal is clear, Less and Greater not consulted; else p + 2. -/
def Obligations.JneJumpsWhenEqualIsClear : Prop :=
  ∀ (a : Byte) (s : State),
    (∀ i, s.fl.e = false → s.selects a i → exec (.jne a) s = .next { s with pc := s.reg i }) ∧
    (s.fl.e = true → s.canAdvance 2 → exec (.jne a) s = .next { s with pc := s.pc + 2#8 }) ∧
    (s.fl.e = false → s.cfg.regIndex = .refuse → 7 < a.toNat → exec (.jne a) s = .fault .regIndex)

/-- After a CMP, JEQ jumps exactly when the registers compared were equal and JNE exactly when they were not. -/
def Obligations.JumpsFollowTheLatestCompare : Prop :=
  ∀ (a b c : Byte) (i j k : RegIx) (s : State), s.selects a i → s.selects b j → s.selects c k → s.canAdvance 5 →
    ∃ t, exec (.cmp a b) s = .next t ∧
      exec (.jeq c) t = .next { t with pc := if s.reg i = s.reg j then s.reg k else s.pc + 5#8 } ∧
      exec (.jne c) t = .next { t with pc := if s.reg i = s.reg j then s.pc + 5#8 else s.reg k }

/-- LDI r, v followed by PRN r appends v, for every byte v. -/
def Obligations.LdiThenPrnEmitsTheImmediate : Prop :=
  ∀ (a v : Byte) (i : RegIx) (s : State), s.selects a i → s.canAdvance 5 →
    ∃ t u, exec (.ldi a v) s = .next t ∧ exec (.prn a) t = .next u ∧ u.out = s.out ++ [v] ∧ u.pc = s.pc + 5#8

/-! ### Frames -/

/-- LDI, MUL, SUB, DIV, INC, DEC change no register but x[a], no flag, no cell, no output, and the run state only by DIV's abort. -/
def Obligations.RegisterWritersFrame : Prop :=
  ∀ (a b : Byte) (d : RegIx) (i : Instr) (s t : State),
    (i = .ldi a b ∨ i = .mul a b ∨ i = .sub a b ∨ i = .div a b ∨ i = .inc a ∨ i = .dec a) →
    s.selects a d → exec i s = .next t →
    (∀ k, k ≠ d → t.reg k = s.reg k) ∧ t.fl = s.fl ∧ t.out = s.out ∧ t.cfg = s.cfg ∧
      (∀ k : Byte, t.readByte k = s.readByte k) ∧
      (t.run = s.run ∨ (i = .div a b ∧ t.run = .aborted .divideByZero ∧ t.reg d = s.reg d))

/-- HLT, PRN, CMP, JMP, JEQ, JNE change no register and no cell; flags only CMP, output only PRN, run state only HLT. -/
def Obligations.RegisterReadersFrame : Prop :=
  ∀ (a b : Byte) (i : Instr) (s t : State),
    (i = .hlt ∨ i = .prn a ∨ i = .cmp a b ∨ i = .jmp a ∨ i = .jeq a ∨ i = .jne a) → exec i s = .next t →
    (∀ k, t.reg k = s.reg k) ∧ t.cfg = s.cfg ∧ (∀ k : Byte, t.readByte k = s.readByte k) ∧
      (i ≠ .cmp a b → t.fl = s.fl) ∧ (i ≠ .prn a → t.out = s.out) ∧ (i ≠ .hlt → t.run = s.run)

/-- PUSH changes only x[7] and the cell its meaning computes; POP changes only x[a] and x[7] and no cell. -/
def Obligations.StackFrame : Prop :=
  ∀ (a : Byte) (d : RegIx) (s t : State), s.selects a d →
    (exec (.push a) s = .next t →
      (∀ k, k ≠ spIx → t.reg k = s.reg k) ∧ t.fl = s.fl ∧ t.out = s.out ∧ t.run = s.run ∧ t.cfg = s.cfg ∧
        ∀ k : Byte, k ≠ s.pushAddr → t.readByte k = s.readByte k) ∧
    (exec (.pop a) s = .next t →
      (∀ k, k ≠ spIx → k ≠ d → t.reg k = s.reg k) ∧ t.fl = s.fl ∧ t.out = s.out ∧ t.run = s.run ∧ t.cfg = s.cfg ∧
        ∀ k : Byte, t.readByte k = s.readByte k)

/-! ### Whole-machine rules -/

/-- Only CMP writes the flags, and after it exactly one is set. -/
def Obligations.OnlyCompareWritesFlags : Prop :=
  ∀ s t : State, step s = .next t →
    (s.readByte s.pc ≠ 0xA7#8 → t.fl = s.fl) ∧
    (s.run = .running → s.readByte s.pc = 0xA7#8 → t.fl.exactlyOne = true)

/-- No instruction observes Less or Greater: two states that differ only in them (and agree on Equal) do the same and still differ only in
them; after a CMP they are the same. -/
def Obligations.LessAndGreaterAreUnobservable : Prop :=
  ∀ (s t : State) (f : Flags), f.e = s.fl.e → s.run = .running → step s = .next t →
    (s.readByte s.pc ≠ 0xA7#8 → step { s with fl := f } = .next { t with fl := f }) ∧
    (s.readByte s.pc = 0xA7#8 → step { s with fl := f } = .next t)

/-- Memory is written only by PUSH, and only at the decremented stack pointer. -/
def Obligations.OnlyPushWritesMemory : Prop :=
  ∀ s t : State, step s = .next t →
    (s.readByte s.pc ≠ 0x45#8 → t.mem = s.mem) ∧
    (∀ k : Byte, k ≠ s.pushAddr → t.readByte k = s.readByte k)

/-- The output stream is only appended to, one value per PRN. -/
def Obligations.OutputIsOnlyAppendedByPrn : Prop :=
  ∀ s t : State, step s = .next t →
    t.out = s.out ∨
      (s.run = .running ∧ s.readByte s.pc = 0x47#8 ∧
        ∃ i, s.selects (s.readByte (s.pc + 1#8)) i ∧ t.out = s.out ++ [s.reg i])

/-- A Running machine stays Running except by HLT, and by DIV with a zero divisor, which changes nothing but the run state: that detail of
the abort is the spec's decision D11 (R156; log 8, DEDUCED). -/
def Obligations.OnlyHltOrDivideByZeroEndsARun : Prop :=
  ∀ s t : State, s.run = .running → step s = .next t →
    t.run = .running ∨ (t.run = .halted ∧ s.readByte s.pc = 0x01#8) ∨
      (t = { s with run := .aborted .divideByZero } ∧ s.readByte s.pc = 0xA3#8 ∧
        ∃ j, s.selects (s.readByte (s.pc + 2#8)) j ∧ s.reg j = 0#8)

/-- A step stops only while Running, by AddrOverrun or RegIndex under their refuse policies, and is never refused (D5, D6). -/
def Obligations.StepStopsOnlyWhereUnspecified : Prop :=
  ∀ s : State,
    (∀ f, step s = .fault f → s.run = .running ∧
      ((f = .addrOverrun ∧ s.cfg.addrOverrun = .refuse) ∨ (f = .regIndex ∧ s.cfg.regIndex = .refuse))) ∧
    (∀ r, step s ≠ .refused r)

/-- Under wrap and mask3 every cycle is total (D5, D6). -/
def Obligations.StepIsTotalUnderWrapAndMask3 : Prop :=
  ∀ s : State, s.cfg.addrOverrun = .wrap → s.cfg.regIndex = .mask3 → ∃ t, step s = .next t

/-- Where the default policies give a next state, wrap and mask3 give the same one. -/
def Obligations.AlternativePoliciesExtendTheDefault : Prop :=
  ∀ (s t : State) (c : Config), c.exposeAdd = s.cfg.exposeAdd → s.cfg.addrOverrun = .refuse → s.cfg.regIndex = .refuse →
    step s = .next t → step { s with cfg := c } = .next { t with cfg := c }

/-- Every instruction whose register operands are in range, or under mask3, completes where its advance is in range or wraps, a DIV
where its divisor is not 0: the run is Halted after HLT and otherwise as it was. A DIV with a zero divisor does not complete but enters
the abort state, which differs in run alone (D11; log 8, DEDUCED). Jumps whose p + 2 overruns, and jumps not taken with an operand
above 7, are in the statements of JMP, JEQ and JNE. -/
def Obligations.EveryInstructionCompletes : Prop :=
  ∀ (i : Instr) (s : State), (s.cfg.regIndex = .mask3 ∨ i.wellFormed = true) → s.canAdvance (i.operands.length + 1) →
    ((∀ (a b : Byte) (j : RegIx), i = .div a b → s.selects b j → s.reg j ≠ 0#8) →
      ∃ t, exec i s = .next t ∧ t.run = if i = .hlt then .halted else s.run) ∧
    (∀ (a b : Byte) (j : RegIx), i = .div a b → s.selects b j → s.reg j = 0#8 →
      exec i s = .next { s with run := .aborted .divideByZero })

/-- No step changes the configuration (the model's own field, log 1). -/
def Obligations.StepKeepsTheConfiguration : Prop :=
  ∀ s t : State, step s = .next t → t.cfg = s.cfg

/-- THE INVARIANT: memory stays canonical, never two flags are set, and UnsupportedAluOperation never occurs. -/
def Obligations.EveryStepKeepsInvariant : Prop :=
  ∀ s t : State, s.Inv → step s = .next t → t.Inv

/-- The envelope's watch is sound for the cycle it observes: a cell it has not recorded reads as before, and when it is ok after the
cycle, no address the cycle fetched was a recorded one, no PUSH wrapped or stored below the image, and no POP wrapped. Of the pc the
cycle ends at it says nothing: that is `InsideEnvelopeRunBreaksNoClause`. -/
def Obligations.EnvelopeWatchRecordsEveryStore : Prop :=
  ∀ (w : EnvelopeWatch) (s t : State), s.run = .running → step s = .next t →
    (∀ a : Byte, a.toNat ∉ (w.observe s).stored → t.readByte a = s.readByte a) ∧
    ((w.observe s).ok = true →
      w.ok = true ∧ s.pc.toNat ∉ w.stored ∧ (s.pc + 1#8).toNat ∉ w.stored ∧ (s.pc + 2#8).toNat ∉ w.stored ∧
        (s.readByte s.pc = 0x45#8 → s.sp ≠ 0#8 ∧ w.imageLen ≤ s.pushAddr.toNat) ∧
        (s.readByte s.pc = 0x46#8 → s.sp ≠ 255#8))

/-- R181 over a run, without the watch: if the next n steps are inside the envelope (D14, log 15), then (i) no PUSH of the run executes
with x[7] = 0 and no POP with x[7] = 255, (ii) no PUSH stores below the image length or to an address the run fetches later, and (iii)
pc never points, the n-th step's end included, at a cell stored to before. All three fetched bytes count as fetched (log 15). -/
def Obligations.InsideEnvelopeRunBreaksNoClause : Prop :=
  ∀ (n : Nat) (w : EnvelopeWatch) (s : State), insideEnvelope n w s = true →
    (∀ (k : Nat) (p : State), k < n → Host.Core.run Sys2Proof.core k s = .next p → p.run = .running →
      (p.readByte p.pc = 0x46#8 → p.sp ≠ 255#8) ∧
      (p.readByte p.pc = 0x45#8 → p.sp ≠ 0#8 ∧ w.imageLen ≤ p.pushAddr.toNat ∧
        ∀ (j : Nat) (u : State), k < j → j ≤ n → Host.Core.run Sys2Proof.core j s = .next u →
          u.pc ≠ p.pushAddr ∧
          (j < n → u.run = .running → u.pc + 1#8 ≠ p.pushAddr ∧ u.pc + 2#8 ≠ p.pushAddr))) ∧
    (∀ (j : Nat) (u : State), j ≤ n → Host.Core.run Sys2Proof.core j s = .next u → u.pc.toNat ∉ w.stored)

/-! ### The host's side -/

/-- The load writes byte i of the image to address i, leaves the cells beyond it and every other field, and is a move only before start and
for at most 256 bytes (D15). That a second load before start is a move too, and what the cells beyond its image then hold, is the
model's choice (log 26). -/
def Obligations.LoadPlacesTheImageFromZero : Prop :=
  ∀ (image : List Byte) (s : State), s.mem.wf = true →
    (s.run = .waiting → image.length ≤ 256 →
      ∃ m, hostLoad image s = some { s with mem := m } ∧ Memory.wf m = true ∧
        (∀ (k : Nat) (h : k < image.length), Memory.read m k = image[k]) ∧
        (∀ k : Nat, image.length ≤ k → Memory.read m k = s.mem.read k)) ∧
    (s.run ≠ .waiting ∨ 256 < image.length → hostLoad image s = none)

/-- A line of eight binary digits, whatever follows, yields the byte they spell most significant first; a blank line, the empty one
included, or a comment yields none. Which characters are white space is the model's choice (log 18). -/
def Obligations.ImageLineYieldsOneByte : Prop :=
  (∀ (v : Byte) (tail : List Char),
    imageLine ((List.finRange 8).map (fun n => if v.getLsbD (7 - n.val) then '1' else '0') ++ tail) = .byte v) ∧
  (∀ blank : List Char, blank.all isLineSpace = true →
    imageLine blank = .skip ∧ ∀ comment : List Char, imageLine (blank ++ '#' :: comment) = .skip)
end

