-- ==== Sys2Proof/Laws/Decode.lean ====
section
/-! SUPPORT. The laws of the opcode table, the decoder's parts and the encoder (30_encoding.md R60 to R69). -/

namespace Sys2Proof

open Sys2Proof.Machine

/-- The table lists every row. -/
theorem Op.mem_all (o : Op) : o ∈ Op.all := by cases o <;> decide

/-- The 14 keys are pairwise distinct (30_encoding.md R67 (a)). -/
theorem Op.byte_injective {o p : Op} (h : o.byte = p.byte) : o = p := by
  revert h
  cases o <;> cases p <;> decide

/-- The row found has the whole byte as its key. -/
theorem decodeOp_some {ir : Byte} {o : Op} (h : decodeOp ir = some o) : o.byte = ir := by
  simpa using List.find?_some h

/-- Each key finds its own row. -/
@[simp] theorem decodeOp_byte (o : Op) : decodeOp o.byte = some o := by
  cases o <;> rfl

/-- A byte is unknown exactly when it is no key (30_encoding.md R69). -/
theorem decodeOp_none_iff {ir : Byte} : decodeOp ir = none ↔ ∀ o : Op, o.byte ≠ ir := by
  simp [decodeOp, Op.mem_all]

/-! ### N and C of the table's keys (30_encoding.md R66) -/

@[simp] theorem operandCount_hlt : operandCount Op.hlt.byte = 0 := by decide
@[simp] theorem operandCount_ldi : operandCount Op.ldi.byte = 2 := by decide
@[simp] theorem operandCount_prn : operandCount Op.prn.byte = 1 := by decide
@[simp] theorem operandCount_mul : operandCount Op.mul.byte = 2 := by decide
@[simp] theorem operandCount_sub : operandCount Op.sub.byte = 2 := by decide
@[simp] theorem operandCount_div : operandCount Op.div.byte = 2 := by decide
@[simp] theorem operandCount_inc : operandCount Op.inc.byte = 1 := by decide
@[simp] theorem operandCount_dec : operandCount Op.dec.byte = 1 := by decide
@[simp] theorem operandCount_cmp : operandCount Op.cmp.byte = 2 := by decide
@[simp] theorem operandCount_push : operandCount Op.push.byte = 1 := by decide
@[simp] theorem operandCount_pop : operandCount Op.pop.byte = 1 := by decide
@[simp] theorem operandCount_jmp : operandCount Op.jmp.byte = 1 := by decide
@[simp] theorem operandCount_jeq : operandCount Op.jeq.byte = 1 := by decide
@[simp] theorem operandCount_jne : operandCount Op.jne.byte = 1 := by decide

@[simp] theorem selfAdvance_hlt : selfAdvance Op.hlt.byte = false := by decide
@[simp] theorem selfAdvance_ldi : selfAdvance Op.ldi.byte = false := by decide
@[simp] theorem selfAdvance_prn : selfAdvance Op.prn.byte = false := by decide
@[simp] theorem selfAdvance_mul : selfAdvance Op.mul.byte = false := by decide
@[simp] theorem selfAdvance_sub : selfAdvance Op.sub.byte = false := by decide
@[simp] theorem selfAdvance_div : selfAdvance Op.div.byte = false := by decide
@[simp] theorem selfAdvance_inc : selfAdvance Op.inc.byte = false := by decide
@[simp] theorem selfAdvance_dec : selfAdvance Op.dec.byte = false := by decide
@[simp] theorem selfAdvance_cmp : selfAdvance Op.cmp.byte = false := by decide
@[simp] theorem selfAdvance_push : selfAdvance Op.push.byte = false := by decide
@[simp] theorem selfAdvance_pop : selfAdvance Op.pop.byte = false := by decide
@[simp] theorem selfAdvance_jmp : selfAdvance Op.jmp.byte = true := by decide
@[simp] theorem selfAdvance_jeq : selfAdvance Op.jeq.byte = true := by decide
@[simp] theorem selfAdvance_jne : selfAdvance Op.jne.byte = true := by decide

@[simp] theorem operandCount_add : operandCount addByte = 2 := by decide

@[simp] theorem selfAdvance_add : selfAdvance addByte = false := by decide

/-- N is the byte divided by 64 (30_encoding.md R62). -/
theorem operandCount_eq_div (ir : Byte) : operandCount ir = ir.toNat / 64 := by
  revert ir; decide

/-- C is the bit of value 16 (30_encoding.md R62). -/
theorem selfAdvance_eq_bit (ir : Byte) : selfAdvance ir = decide (ir.toNat / 16 % 2 = 1) := by
  revert ir; decide

/-- Bit 4 is set exactly in the jumps' keys (30_encoding.md R67 (c)). -/
theorem Op.selfAdvance_iff (o : Op) : selfAdvance o.byte = true ↔ o = .jmp ∨ o = .jeq ∨ o = .jne := by
  cases o <;> decide

/-- Format F1 takes one byte. -/
theorem takeOne_ok {build : Byte → Instr} {bytes rest : List Byte} {i : Instr}
    (h : takeOne build bytes = .ok (i, rest)) : ∃ a, bytes = a :: rest ∧ i = build a := by
  cases bytes with
  | nil => cases h
  | cons a bytes =>
    cases h
    exact ⟨a, rfl, rfl⟩

/-- Format F2 takes two bytes. -/
theorem takeTwo_ok {build : Byte → Byte → Instr} {bytes rest : List Byte} {i : Instr}
    (h : takeTwo build bytes = .ok (i, rest)) : ∃ a b, bytes = a :: b :: rest ∧ i = build a b := by
  match bytes, h with
  | a :: b :: bytes, h =>
    cases h
    exact ⟨a, b, rfl, rfl⟩

/-- The operand bytes of an instruction of a row are taken back whole, whatever follows. -/
theorem takeOperands_operands (i : Instr) (rest : List Byte) :
    takeOperands i.op (i.operands ++ rest) = .ok (i, rest) := by
  cases i <;> rfl

/-- What the operand forms build belongs to the row, and the bytes taken are its operands. -/
theorem takeOperands_ok {o : Op} {bytes rest : List Byte} {i : Instr}
    (h : takeOperands o bytes = .ok (i, rest)) : i.op = o ∧ bytes = i.operands ++ rest := by
  cases o
  case hlt => cases h; exact ⟨rfl, rfl⟩
  case ldi => obtain ⟨a, b, rfl, rfl⟩ := takeTwo_ok h; exact ⟨rfl, rfl⟩
  case mul => obtain ⟨a, b, rfl, rfl⟩ := takeTwo_ok h; exact ⟨rfl, rfl⟩
  case sub => obtain ⟨a, b, rfl, rfl⟩ := takeTwo_ok h; exact ⟨rfl, rfl⟩
  case div => obtain ⟨a, b, rfl, rfl⟩ := takeTwo_ok h; exact ⟨rfl, rfl⟩
  case cmp => obtain ⟨a, b, rfl, rfl⟩ := takeTwo_ok h; exact ⟨rfl, rfl⟩
  all_goals
    obtain ⟨a, rfl, rfl⟩ := takeOne_ok h
    exact ⟨rfl, rfl⟩

/-- Two operand bytes suffice for every row. -/
theorem takeOperands_two (o : Op) (opa opb : Byte) : ∃ i rest, takeOperands o [opa, opb] = .ok (i, rest) := by
  cases o <;> exact ⟨_, _, rfl⟩

/-- A byte with no row is rejected by its name, whatever follows. -/
theorem decode_unknown {ir : Byte} (h : decodeOp ir = none) (bytes : List Byte) :
    decode (ir :: bytes) = .error (.unknownOpcode ir) := by
  simp only [decode, h]

/-- Three bytes decode or are an unknown opcode: the engine never meets a truncated instruction. -/
theorem decode_three (ir opa opb : Byte) :
    (∃ i rest, decode [ir, opa, opb] = .ok (i, rest) ∧ i.op.byte = ir) ∨
      (decodeOp ir = none ∧ decode [ir, opa, opb] = .error (.unknownOpcode ir)) := by
  cases h : decodeOp ir with
  | none => exact .inr ⟨rfl, decode_unknown h _⟩
  | some o =>
    obtain ⟨i, rest, hi⟩ := takeOperands_two o opa opb
    refine .inl ⟨i, rest, ?_, ?_⟩
    · simp only [decode, h, hi]
    · rw [(takeOperands_ok hi).1, decodeOp_some h]

namespace Machine

/-- Step 4 on bytes that decode is exec of the instruction. -/
theorem dispatch_ok {ir opa opb : Byte} {s : State} {i : Instr} {rest : List Byte}
    (h : decode [ir, opa, opb] = .ok (i, rest)) : dispatch ir opa opb s = exec i s := by
  simp only [dispatch, h]

/-- Step 4 on a byte with no row. -/
theorem dispatch_unlisted {ir opa opb : Byte} {s : State} (h : decodeOp ir = none) :
    dispatch ir opa opb s = execUnlisted ir opa opb s := by
  simp only [dispatch, decode_unknown h]

/-- Everything a cycle can do: the operand reads overrun, a row's instruction runs, or the byte has no row. -/
theorem cycle_cases (s : State) :
    (fetchOverruns s = true ∧ s.cfg.addrOverrun = .refuse ∧ cycle s = .fault .addrOverrun) ∨
      (∃ i rest, decode s.fetched = .ok (i, rest) ∧ i.op.byte = s.readByte s.pc ∧ cycle s = exec i s) ∨
      (decodeOp (s.readByte s.pc) = none ∧
        cycle s = execUnlisted (s.readByte s.pc) (s.readByte (s.pc + 1#8)) (s.readByte (s.pc + 2#8)) s) := by
  unfold cycle
  split
  · rename_i h
    exact .inl ⟨h.1, h.2, rfl⟩
  · obtain ⟨i, rest, h, hb⟩ | ⟨h, -⟩ :=
      decode_three (s.readByte s.pc) (s.readByte (s.pc + 1#8)) (s.readByte (s.pc + 2#8))
    · exact .inr (.inl ⟨i, rest, h, hb, dispatch_ok h⟩)
    · exact .inr (.inr ⟨h, dispatch_unlisted h⟩)

end Machine

end Sys2Proof
end

