-- ==== Sys2Proof/Laws/State.lean ====
section
/-! SUPPORT. One lemma per field of State per update operation, true by rfl, and what a register read gives after each update. -/

namespace Sys2Proof.Machine

open Sys2Proof

variable (s : State)

/-! ### setReg -/

@[simp] theorem State.setReg_x (i : RegIx) (v : Byte) : (s.setReg i v).x = s.x.set i v := rfl
@[simp] theorem State.setReg_pc (i : RegIx) (v : Byte) : (s.setReg i v).pc = s.pc := rfl
@[simp] theorem State.setReg_fl (i : RegIx) (v : Byte) : (s.setReg i v).fl = s.fl := rfl
@[simp] theorem State.setReg_run (i : RegIx) (v : Byte) : (s.setReg i v).run = s.run := rfl
@[simp] theorem State.setReg_mem (i : RegIx) (v : Byte) : (s.setReg i v).mem = s.mem := rfl
@[simp] theorem State.setReg_out (i : RegIx) (v : Byte) : (s.setReg i v).out = s.out := rfl
@[simp] theorem State.setReg_cfg (i : RegIx) (v : Byte) : (s.setReg i v).cfg = s.cfg := rfl
@[simp] theorem State.setReg_readByte (i : RegIx) (v : Byte) (k : Byte) : (s.setReg i v).readByte k = s.readByte k := rfl

/-! ### writeByte -/

@[simp] theorem State.writeByte_x (a v : Byte) : (s.writeByte a v).x = s.x := rfl
@[simp] theorem State.writeByte_pc (a v : Byte) : (s.writeByte a v).pc = s.pc := rfl
@[simp] theorem State.writeByte_fl (a v : Byte) : (s.writeByte a v).fl = s.fl := rfl
@[simp] theorem State.writeByte_run (a v : Byte) : (s.writeByte a v).run = s.run := rfl
@[simp] theorem State.writeByte_mem (a v : Byte) : (s.writeByte a v).mem = s.mem.write a.toNat v := rfl
@[simp] theorem State.writeByte_out (a v : Byte) : (s.writeByte a v).out = s.out := rfl
@[simp] theorem State.writeByte_cfg (a v : Byte) : (s.writeByte a v).cfg = s.cfg := rfl
@[simp] theorem State.writeByte_reg (a v : Byte) (k : RegIx) : (s.writeByte a v).reg k = s.reg k := rfl
@[simp] theorem State.writeByte_sp (a v : Byte) : (s.writeByte a v).sp = s.sp := rfl

/-! ### setFlags -/

@[simp] theorem State.setFlags_x (f : Flags) : (s.setFlags f).x = s.x := rfl
@[simp] theorem State.setFlags_pc (f : Flags) : (s.setFlags f).pc = s.pc := rfl
@[simp] theorem State.setFlags_fl (f : Flags) : (s.setFlags f).fl = f := rfl
@[simp] theorem State.setFlags_run (f : Flags) : (s.setFlags f).run = s.run := rfl
@[simp] theorem State.setFlags_mem (f : Flags) : (s.setFlags f).mem = s.mem := rfl
@[simp] theorem State.setFlags_out (f : Flags) : (s.setFlags f).out = s.out := rfl
@[simp] theorem State.setFlags_cfg (f : Flags) : (s.setFlags f).cfg = s.cfg := rfl
@[simp] theorem State.setFlags_reg (f : Flags) (k : RegIx) : (s.setFlags f).reg k = s.reg k := rfl
@[simp] theorem State.setFlags_sp (f : Flags) : (s.setFlags f).sp = s.sp := rfl
@[simp] theorem State.setFlags_readByte (f : Flags) (k : Byte) : (s.setFlags f).readByte k = s.readByte k := rfl

/-! ### emit -/

@[simp] theorem State.emit_x (v : Byte) : (s.emit v).x = s.x := rfl
@[simp] theorem State.emit_pc (v : Byte) : (s.emit v).pc = s.pc := rfl
@[simp] theorem State.emit_fl (v : Byte) : (s.emit v).fl = s.fl := rfl
@[simp] theorem State.emit_run (v : Byte) : (s.emit v).run = s.run := rfl
@[simp] theorem State.emit_mem (v : Byte) : (s.emit v).mem = s.mem := rfl
@[simp] theorem State.emit_out (v : Byte) : (s.emit v).out = s.out ++ [v] := rfl
@[simp] theorem State.emit_cfg (v : Byte) : (s.emit v).cfg = s.cfg := rfl
@[simp] theorem State.emit_reg (v : Byte) (k : RegIx) : (s.emit v).reg k = s.reg k := rfl
@[simp] theorem State.emit_sp (v : Byte) : (s.emit v).sp = s.sp := rfl
@[simp] theorem State.emit_readByte (v : Byte) (k : Byte) : (s.emit v).readByte k = s.readByte k := rfl

/-! ### halt -/

@[simp] theorem State.halt_x : (s.halt).x = s.x := rfl
@[simp] theorem State.halt_pc : (s.halt).pc = s.pc := rfl
@[simp] theorem State.halt_fl : (s.halt).fl = s.fl := rfl
@[simp] theorem State.halt_run : (s.halt).run = .halted := rfl
@[simp] theorem State.halt_mem : (s.halt).mem = s.mem := rfl
@[simp] theorem State.halt_out : (s.halt).out = s.out := rfl
@[simp] theorem State.halt_cfg : (s.halt).cfg = s.cfg := rfl
@[simp] theorem State.halt_reg (k : RegIx) : (s.halt).reg k = s.reg k := rfl
@[simp] theorem State.halt_sp : (s.halt).sp = s.sp := rfl
@[simp] theorem State.halt_readByte (k : Byte) : (s.halt).readByte k = s.readByte k := rfl

/-! ### start -/

@[simp] theorem State.start_x : (s.start).x = s.x := rfl
@[simp] theorem State.start_pc : (s.start).pc = s.pc := rfl
@[simp] theorem State.start_fl : (s.start).fl = s.fl := rfl
@[simp] theorem State.start_run : (s.start).run = .running := rfl
@[simp] theorem State.start_mem : (s.start).mem = s.mem := rfl
@[simp] theorem State.start_out : (s.start).out = s.out := rfl
@[simp] theorem State.start_cfg : (s.start).cfg = s.cfg := rfl
@[simp] theorem State.start_reg (k : RegIx) : (s.start).reg k = s.reg k := rfl
@[simp] theorem State.start_sp : (s.start).sp = s.sp := rfl
@[simp] theorem State.start_readByte (k : Byte) : (s.start).readByte k = s.readByte k := rfl

/-! ### abort -/

@[simp] theorem State.abort_x (c : AbortCause) : (s.abort c).x = s.x := rfl
@[simp] theorem State.abort_pc (c : AbortCause) : (s.abort c).pc = s.pc := rfl
@[simp] theorem State.abort_fl (c : AbortCause) : (s.abort c).fl = s.fl := rfl
@[simp] theorem State.abort_run (c : AbortCause) : (s.abort c).run = .aborted c := rfl
@[simp] theorem State.abort_mem (c : AbortCause) : (s.abort c).mem = s.mem := rfl
@[simp] theorem State.abort_out (c : AbortCause) : (s.abort c).out = s.out := rfl
@[simp] theorem State.abort_cfg (c : AbortCause) : (s.abort c).cfg = s.cfg := rfl
@[simp] theorem State.abort_reg (c : AbortCause) (k : RegIx) : (s.abort c).reg k = s.reg k := rfl
@[simp] theorem State.abort_sp (c : AbortCause) : (s.abort c).sp = s.sp := rfl
@[simp] theorem State.abort_readByte (c : AbortCause) (k : Byte) : (s.abort c).readByte k = s.readByte k := rfl

/-! ### setPc -/

@[simp] theorem State.setPc_x (t : Byte) : (s.setPc t).x = s.x := rfl
@[simp] theorem State.setPc_pc (t : Byte) : (s.setPc t).pc = t := rfl
@[simp] theorem State.setPc_fl (t : Byte) : (s.setPc t).fl = s.fl := rfl
@[simp] theorem State.setPc_run (t : Byte) : (s.setPc t).run = s.run := rfl
@[simp] theorem State.setPc_mem (t : Byte) : (s.setPc t).mem = s.mem := rfl
@[simp] theorem State.setPc_out (t : Byte) : (s.setPc t).out = s.out := rfl
@[simp] theorem State.setPc_cfg (t : Byte) : (s.setPc t).cfg = s.cfg := rfl
@[simp] theorem State.setPc_reg (t : Byte) (k : RegIx) : (s.setPc t).reg k = s.reg k := rfl
@[simp] theorem State.setPc_sp (t : Byte) : (s.setPc t).sp = s.sp := rfl
@[simp] theorem State.setPc_readByte (t : Byte) (k : Byte) : (s.setPc t).readByte k = s.readByte k := rfl

/-! ### Registers -/

@[simp] theorem State.reg_setReg_same (i : RegIx) (v : Byte) : (s.setReg i v).reg i = v := by
  simp [State.reg, State.setReg]

theorem State.reg_setReg (i k : RegIx) (v : Byte) :
    (s.setReg i v).reg k = if i = k then v else s.reg k := by
  simp only [State.reg, State.setReg, Fin.getElem_fin, Vector.getElem_set, Fin.ext_iff]

theorem State.reg_setReg_other {i k : RegIx} (v : Byte) (h : k ≠ i) : (s.setReg i v).reg k = s.reg k := by
  rw [State.reg_setReg, if_neg (Ne.symm h)]

/-- Writing back what a register holds changes nothing. -/
theorem State.setReg_reg_self (i : RegIx) : s.setReg i (s.reg i) = s := by
  simp [State.setReg, State.reg]

/-- Of two writes to one register the later one stands. -/
theorem State.setReg_setReg_same (i : RegIx) (v w : Byte) : (s.setReg i v).setReg i w = s.setReg i w := by
  simp [State.setReg]

theorem State.sp_eq : s.sp = s.reg spIx := rfl

/-! ### Reset (10_state.md R34) -/

theorem State.reset_reg (i : RegIx) : State.reset.reg i = if i = spIx then 255#8 else 0#8 := by
  revert i; decide

end Sys2Proof.Machine
end

