-- ==== Sys2Proof/Laws/Memory.lean ====
section
/-! SUPPORT. The laws of RAM as a canonical list: what a read gives after a write, and that a write keeps the canonical form. -/

namespace Sys2Proof.Machine

open Sys2Proof

/-- The canonical form, one entry at a time. -/
theorem Memory.wf_cons {k : Nat} {v : Byte} {m : Memory} :
    Memory.wf ((k, v) :: m) = true ↔
      k < Config.memSize ∧ v ≠ ramFill ∧ (∀ c ∈ m, k < c.1) ∧ Memory.wf m = true := by
  simp [Memory.wf, and_assoc]

/-- An address below every listed one reads as RAM_FILL. -/
theorem Memory.read_of_all_lt {m : Memory} {a : Nat} (h : ∀ c ∈ m, a < c.1) : Memory.read m a = ramFill := by
  induction m with
  | nil => rfl
  | cons c m ih =>
    obtain ⟨k, v⟩ := c
    have hk : a < k := h (k, v) (List.mem_cons_self ..)
    have hm : ∀ c ∈ m, a < c.1 := fun c hc => h c (List.mem_cons_of_mem _ hc)
    simp [Memory.read, Nat.ne_of_gt hk, ih hm]

/-- A write leaves every other address alone, in any memory. -/
theorem Memory.read_write_other (m : Memory) {a b : Nat} (v : Byte) (h : b ≠ a) :
    (m.write a v).read b = m.read b := by
  induction m with
  | nil => by_cases hv : v = ramFill <;> simp [Memory.write, Memory.read, hv, Ne.symm h]
  | cons c m ih =>
    obtain ⟨k, w⟩ := c
    simp only [Memory.write]
    split
    · split
      · rfl
      · simp [Memory.read, Ne.symm h]
    · split
      · rename_i hak
        subst hak
        split <;> simp [Memory.read, Ne.symm h]
      · simp only [Memory.read, ih]

/-- A read after a write to the same address gives the value written, in a canonical memory. -/
theorem Memory.read_write_same {m : Memory} (hm : Memory.wf m = true) (a : Nat) (v : Byte) :
    (m.write a v).read a = v := by
  induction m with
  | nil => by_cases hv : v = ramFill <;> simp [Memory.write, Memory.read, hv]
  | cons c m ih =>
    obtain ⟨k, w⟩ := c
    obtain ⟨-, -, hlt, hwf⟩ := Memory.wf_cons.mp hm
    simp only [Memory.write]
    split
    · rename_i hak
      split
      · rename_i hv
        have : ∀ c ∈ ((k, w) :: m), a < c.1 := by
          rintro c (_ | ⟨_, hc⟩)
          · exact hak
          · exact Nat.lt_trans hak (hlt c hc)
        rw [Memory.read_of_all_lt this, hv]
      · simp [Memory.read]
    · split
      · rename_i hak
        subst hak
        split
        · rename_i hv
          rw [Memory.read_of_all_lt hlt, hv]
        · simp [Memory.read]
      · rename_i hne
        simp [Memory.read, Ne.symm hne, ih hwf]

/-- A lower bound of the listed addresses survives a write above it. -/
theorem Memory.write_all_lt {m : Memory} {k a : Nat} {v : Byte} (hm : ∀ c ∈ m, k < c.1) (ha : k < a) :
    ∀ c ∈ m.write a v, k < c.1 := by
  induction m with
  | nil =>
    by_cases hv : v = ramFill <;> simp [Memory.write, hv, ha]
  | cons c m ih =>
    obtain ⟨j, w⟩ := c
    have hj : k < j := hm (j, w) (List.mem_cons_self ..)
    have hrest : ∀ c ∈ m, k < c.1 := fun c hc => hm c (List.mem_cons_of_mem _ hc)
    simp only [Memory.write]
    split
    · split
      · exact hm
      · rintro c (_ | ⟨_, hc⟩)
        · exact ha
        · exact hm c hc
    · split
      · split
        · exact hrest
        · rintro c (_ | ⟨_, hc⟩)
          · exact ha
          · exact hrest c hc
      · rintro c (_ | ⟨_, hc⟩)
        · exact hj
        · exact ih hrest c hc

/-- A write inside the address space keeps the canonical form. -/
theorem Memory.wf_write {m : Memory} (hm : Memory.wf m = true) {a : Nat} (ha : a < Config.memSize) (v : Byte) :
    Memory.wf (m.write a v) = true := by
  induction m with
  | nil => by_cases hv : v = ramFill <;> simp [Memory.write, Memory.wf, hv, ha]
  | cons c m ih =>
    obtain ⟨k, w⟩ := c
    obtain ⟨hk, hw, hlt, hwf⟩ := Memory.wf_cons.mp hm
    simp only [Memory.write]
    split
    · rename_i hak
      split
      · exact hm
      · rename_i hv
        refine Memory.wf_cons.mpr ⟨ha, hv, ?_, hm⟩
        rintro c (_ | ⟨_, hc⟩)
        · exact hak
        · exact Nat.lt_trans hak (hlt c hc)
    · split
      · rename_i hak
        subst hak
        split
        · exact hwf
        · rename_i hv
          exact Memory.wf_cons.mpr ⟨ha, hv, hlt, hwf⟩
      · rename_i hnlt hne
        exact Memory.wf_cons.mpr ⟨hk, hw, Memory.write_all_lt hlt (by omega), ih hwf⟩

/-- A byte store keeps the canonical form: its address is 8 bits wide. -/
theorem State.writeByte_wf {s : State} (h : s.mem.wf = true) (a v : Byte) : (s.writeByte a v).mem.wf = true :=
  Memory.wf_write h a.isLt v

/-- A byte store is read back. -/
theorem State.readByte_writeByte_same {s : State} (h : s.mem.wf = true) (a v : Byte) :
    (s.writeByte a v).readByte a = v :=
  Memory.read_write_same h a.toNat v

/-- A byte store leaves every other cell alone. -/
theorem State.readByte_writeByte_other (s : State) {a b : Byte} (v : Byte) (h : b ≠ a) :
    (s.writeByte a v).readByte b = s.readByte b :=
  Memory.read_write_other s.mem v (fun hab => h (BitVec.eq_of_toNat_eq hab))

/-- Memory after reset is canonical. -/
theorem State.reset_mem_wf : State.reset.mem.wf = true := rfl

end Sys2Proof.Machine
end

