-- ==== Sys2Proof/Laws/Ops.lean ====
section
/-! SUPPORT. One lemma per shared operation that says everything it can do; proofs cite these instead of unfolding it. -/

namespace Sys2Proof.Machine

open Sys2Proof

/-! ### reg() (30_encoding.md R65) -/

/-- A byte that names a register selects it under both policies. -/
theorem regOperand_of_le (p : IndexPolicy) {k : Byte} (h : k.toNat < Config.nregs) :
    regOperand p k = some ⟨k.toNat, h⟩ := by
  simp only [regOperand, dif_pos h]

/-- A byte above 7 has no slot under refuse. -/
theorem regOperand_refuse {k : Byte} (h : 7 < k.toNat) : regOperand .refuse k = none := by
  simp only [regOperand, Config.nregs, dif_neg (show ¬ k.toNat < 8 by omega)]

/-- Under mask3 every byte selects the register its low three bits name. -/
theorem regOperand_mask3 (k : Byte) : regOperand .mask3 k = some (Fin.ofNat 8 (k.toNat % 8)) := by
  by_cases h : k.toNat < 8
  · simp [regOperand, h, Fin.ofNat, Nat.mod_eq_of_lt h]
  · simp [regOperand, h, Config.nregs]

theorem regOperand_none_iff {p : IndexPolicy} {k : Byte} :
    regOperand p k = none ↔ p = .refuse ∧ 7 < k.toNat := by
  cases p with
  | mask3 => simp [regOperand_mask3]
  | refuse =>
    by_cases h : k.toNat < 8
    · simp [regOperand_of_le _ h]; omega
    · simp [regOperand_refuse (show 7 < k.toNat by omega)]; omega

/-! ### withReg, withRegs -/

theorem withReg_some {k : Byte} {s : State} {i : RegIx} (body : RegIx → Result)
    (h : regOperand s.cfg.regIndex k = some i) : withReg k s body = body i := by
  simp only [withReg, h]

theorem withReg_none {k : Byte} {s : State} (body : RegIx → Result)
    (h : regOperand s.cfg.regIndex k = none) : withReg k s body = .fault .regIndex := by
  simp only [withReg, h]

theorem withRegs_some {a b : Byte} {s : State} {i j : RegIx} (body : RegIx → RegIx → Result)
    (ha : regOperand s.cfg.regIndex a = some i) (hb : regOperand s.cfg.regIndex b = some j) :
    withRegs a b s body = body i j := by
  rw [withRegs, withReg_some _ ha, withReg_some _ hb]

theorem withRegs_none {a b : Byte} {s : State} (body : RegIx → RegIx → Result)
    (h : regOperand s.cfg.regIndex a = none ∨ regOperand s.cfg.regIndex b = none) :
    withRegs a b s body = .fault .regIndex := by
  rw [withRegs]
  cases ha : regOperand s.cfg.regIndex a with
  | none => exact withReg_none _ ha
  | some i =>
    rw [withReg_some _ ha]
    exact withReg_none _ (h.resolve_left (by simp [ha]))

/-- If a one-register handler completes, its operand selected a register. -/
theorem withReg_next {k : Byte} {s t : State} {body : RegIx → Result} (h : withReg k s body = .next t) :
    ∃ i, regOperand s.cfg.regIndex k = some i ∧ body i = .next t := by
  cases hk : regOperand s.cfg.regIndex k with
  | none => simp [withReg, hk] at h
  | some i => exact ⟨i, rfl, by simpa [withReg, hk] using h⟩

theorem withRegs_next {a b : Byte} {s t : State} {body : RegIx → RegIx → Result}
    (h : withRegs a b s body = .next t) :
    ∃ i j, regOperand s.cfg.regIndex a = some i ∧ regOperand s.cfg.regIndex b = some j ∧ body i j = .next t := by
  obtain ⟨i, hi, h⟩ := withReg_next h
  obtain ⟨j, hj, h⟩ := withReg_next h
  exact ⟨i, j, hi, hj, h⟩

/-! ### movePc, advance (40_engine_cycle.md R85, R86) -/

theorem movePc_eq (n : Nat) (s : State) :
    movePc n s = if 255 < s.pc.toNat + n ∧ s.cfg.addrOverrun = .refuse then .fault .addrOverrun
      else .next (s.setPc (s.pc + BitVec.ofNat 8 n)) := by
  simp [movePc, BitVec.ofNat_add, BitVec.ofNat_toNat]

/-- The new pc is pc + n modulo 256, or the advance overruns. -/
theorem movePc_cases (n : Nat) (s : State) :
    (255 < s.pc.toNat + n ∧ s.cfg.addrOverrun = .refuse ∧ movePc n s = .fault .addrOverrun) ∨
      ((s.pc.toNat + n ≤ 255 ∨ s.cfg.addrOverrun = .wrap) ∧
        movePc n s = .next (s.setPc (s.pc + BitVec.ofNat 8 n))) := by
  rw [movePc_eq]
  by_cases h : 255 < s.pc.toNat + n ∧ s.cfg.addrOverrun = .refuse
  · exact .inl ⟨h.1, h.2, if_pos h⟩
  · refine .inr ⟨?_, if_neg h⟩
    cases hp : s.cfg.addrOverrun with
    | refuse => left; simp [hp] at h; omega
    | wrap => exact .inr rfl

theorem movePc_next {n : Nat} {s t : State} (h : movePc n s = .next t) :
    t = s.setPc (s.pc + BitVec.ofNat 8 n) := by
  obtain ⟨-, -, h'⟩ | ⟨-, h'⟩ := movePc_cases n s
  · simp [h'] at h
  · simpa [h'] using h.symm

/-- An advance that fits, or wraps, moves pc and nothing else. -/
theorem movePc_of_fits {n : Nat} {s : State} (h : s.pc.toNat + n ≤ 255 ∨ s.cfg.addrOverrun = .wrap) :
    movePc n s = .next (s.setPc (s.pc + BitVec.ofNat 8 n)) := by
  rw [movePc_eq, if_neg]
  rintro ⟨h1, h2⟩
  rcases h with h | h
  · omega
  · simp [h2] at h

/-- With bit 4 clear the engine advances by the decoded count plus one. -/
theorem advance_clear {ir : Byte} (h : selfAdvance ir = false) (s : State) :
    advance ir s = movePc (operandCount ir + 1) s := by
  simp [advance, h]

/-- With bit 4 set the engine does not advance. -/
theorem advance_set {ir : Byte} (h : selfAdvance ir = true) (s : State) : advance ir s = .next s := by
  simp [advance, h]

/-- A completed advance changes nothing but pc. -/
theorem advance_next {ir : Byte} {s t : State} (h : advance ir s = .next t) : ∃ p, t = s.setPc p := by
  cases hc : selfAdvance ir with
  | true =>
    rw [advance_set hc] at h
    cases h
    exact ⟨s.pc, rfl⟩
  | false =>
    rw [advance_clear hc] at h
    exact ⟨_, movePc_next h⟩

/-- An advance that fails overran, under refuse. -/
theorem advance_not_next {ir : Byte} {s : State} (h : ∀ t, advance ir s ≠ .next t) :
    advance ir s = .fault .addrOverrun ∧ s.cfg.addrOverrun = .refuse := by
  cases hc : selfAdvance ir with
  | true => exact absurd (advance_set hc s) (h s)
  | false =>
    rw [advance_clear hc] at h ⊢
    obtain ⟨-, hp, h'⟩ | ⟨-, h'⟩ := movePc_cases (operandCount ir + 1) s
    · exact ⟨h', hp⟩
    · exact absurd h' (h _)

/-! ### The ALU (42_alu_arithmetic.md R110) -/

/-- Everything a completed ALU request can have done: a write of the first register, or of the flags by a compare. -/
theorem alu_done {op : AluOp} {i j : RegIx} {s u : State} (h : alu op i j s = .done u) :
    (op ≠ .cmp ∧ ∃ v, u = s.setReg i v) ∨ (op = .cmp ∧ u = s.setFlags (compareFlags (s.reg i) (s.reg j))) := by
  cases op with
  | div =>
    simp only [alu] at h
    split at h
    · cases h
    · cases h
      exact .inl ⟨by decide, _, rfl⟩
  | cmp => cases h; exact .inr ⟨rfl, rfl⟩
  | unsupported => cases h
  | mul => cases h; exact .inl ⟨by decide, _, rfl⟩
  | add => cases h; exact .inl ⟨by decide, _, rfl⟩
  | sub => cases h; exact .inl ⟨by decide, _, rfl⟩
  | inc => cases h; exact .inl ⟨by decide, _, rfl⟩
  | dec => cases h; exact .inl ⟨by decide, _, rfl⟩

/-- The ALU raises only for a zero divisor or an unsupported request (60_exceptions.md R151, R152). -/
theorem alu_raise {op : AluOp} {i j : RegIx} {s : State} {c : AbortCause} (h : alu op i j s = .raise c) :
    (op = .div ∧ s.reg j = 0#8 ∧ c = .divideByZero) ∨ (op = .unsupported ∧ c = .unsupportedAluOperation) := by
  cases op with
  | div =>
    simp only [alu] at h
    split at h
    · rename_i hz
      cases h
      exact .inl ⟨rfl, hz, rfl⟩
    · cases h
  | unsupported => cases h; exact .inr ⟨rfl, rfl⟩
  | mul => cases h
  | add => cases h
  | sub => cases h
  | inc => cases h
  | dec => cases h
  | cmp => cases h

/-- A handler around an ALU request that answers a next state either completed the request and advanced, or took the abort. -/
theorem finishAlu_next {ir : Byte} {s t : State} {r : AluOutcome} (h : finishAlu ir s r = .next t) :
    (∃ u p, r = .done u ∧ t = u.setPc p) ∨ (∃ c, r = .raise c ∧ t = s.abort c) := by
  cases r with
  | done u =>
    obtain ⟨p, hp⟩ := advance_next h
    exact .inl ⟨u, p, rfl, hp⟩
  | raise c =>
    cases h
    exact .inr ⟨c, rfl, rfl⟩

/-- Everything a two-register ALU handler can do when it answers a next state. -/
theorem aluTwo_next {ir : Byte} {op : AluOp} {a b : Byte} {s t : State} (h : aluTwo ir op a b s = .next t) :
    ∃ i j, regOperand s.cfg.regIndex a = some i ∧ regOperand s.cfg.regIndex b = some j ∧
      ((∃ u p, alu op i j s = .done u ∧ t = u.setPc p) ∨ (∃ c, alu op i j s = .raise c ∧ t = s.abort c)) := by
  obtain ⟨i, j, hi, hj, h⟩ := withRegs_next h
  exact ⟨i, j, hi, hj, finishAlu_next h⟩

/-- Everything a one-register ALU handler can do when it answers a next state. -/
theorem aluOne_next {ir : Byte} {op : AluOp} {a : Byte} {s t : State} (h : aluOne ir op a s = .next t) :
    ∃ i, regOperand s.cfg.regIndex a = some i ∧
      ((∃ u p, alu op i i s = .done u ∧ t = u.setPc p) ∨ (∃ c, alu op i i s = .raise c ∧ t = s.abort c)) := by
  obtain ⟨i, hi, h⟩ := withReg_next h
  exact ⟨i, hi, finishAlu_next h⟩

/-! ### Flags (43_compare.md R120, R121) -/

/-- A compare leaves exactly one flag set. -/
theorem compareFlags_exactlyOne (x y : Byte) : (compareFlags x y).exactlyOne = true := by
  unfold compareFlags
  split
  · rfl
  · split <;> rfl

/-- Less, Greater and Equal are the three unsigned relations. -/
theorem compareFlags_l (x y : Byte) : (compareFlags x y).l = decide (x.toNat < y.toNat) := by
  unfold compareFlags
  split
  · simp [*]
  · split <;> simp [*]

theorem compareFlags_g (x y : Byte) : (compareFlags x y).g = decide (y.toNat < x.toNat) := by
  unfold compareFlags
  split
  · simp; omega
  · split <;> simp [*]

theorem compareFlags_e (x y : Byte) : (compareFlags x y).e = decide (x = y) := by
  unfold compareFlags
  split
  · simp only [Bool.false_eq, decide_eq_false_iff_not]
    rintro rfl
    omega
  · split
    · simp only [Bool.false_eq, decide_eq_false_iff_not]
      rintro rfl
      omega
    · simp only [Bool.true_eq, decide_eq_true_eq]
      exact BitVec.eq_of_toNat_eq (by omega)

/-! ### ALU results as BitVec arithmetic -/

theorem mulResult_eq (x y : Byte) : mulResult x y = x * y := by
  apply BitVec.eq_of_toNat_eq
  simp [mulResult, BitVec.toNat_mul]

theorem addResult_eq (x y : Byte) : addResult x y = x + y := by
  apply BitVec.eq_of_toNat_eq
  simp [addResult, BitVec.toNat_add]

theorem subResult_eq (x y : Byte) : subResult x y = x - y := by
  apply BitVec.eq_of_toNat_eq
  simp only [subResult, BitVec.toNat_ofInt, BitVec.toNat_sub]
  have := x.isLt
  have := y.isLt
  omega

theorem divResult_eq (x y : Byte) : divResult x y = x / y := by
  apply BitVec.eq_of_toNat_eq
  have : x.toNat / y.toNat < 256 := Nat.lt_of_le_of_lt (Nat.div_le_self ..) x.isLt
  simp [divResult, BitVec.toNat_udiv, Nat.mod_eq_of_lt this]

theorem pushAddr_eq (s : State) : s.pushAddr = s.reg spIx - 1#8 := by
  simpa [State.pushAddr, State.sp, subResult] using subResult_eq (s.reg spIx) 1#8

theorem afterPop_eq (s : State) : s.afterPop = s.reg spIx + 1#8 := by
  apply BitVec.eq_of_toNat_eq
  simp [State.afterPop, State.sp, BitVec.toNat_add]

end Sys2Proof.Machine
end

