-- ==== Sys2Proof/Laws/Exec.lean ====
section
/-! SUPPORT. What exec, an unlisted byte and a step can do when they answer a next state, said once: every whole-machine proof is a case
analysis over `Effect`. -/

namespace Sys2Proof.Machine

open Sys2Proof

/-- `Effect s i t`: the instruction `i` may take `s` to `t`. `p` is the new pc. -/
inductive Effect (s : State) : Instr → State → Prop where
  | hlt (p : Byte) : Effect s .hlt (s.halt.setPc p)
  | ldi {a b : Byte} {i : RegIx} (p : Byte) (ha : regOperand s.cfg.regIndex a = some i) :
      Effect s (.ldi a b) ((s.setReg i b).setPc p)
  | prn {a : Byte} {i : RegIx} (p : Byte) (ha : regOperand s.cfg.regIndex a = some i) :
      Effect s (.prn a) ((s.emit (s.reg i)).setPc p)
  | mul {a b : Byte} {i : RegIx} (p v : Byte) (ha : regOperand s.cfg.regIndex a = some i) :
      Effect s (.mul a b) ((s.setReg i v).setPc p)
  | sub {a b : Byte} {i : RegIx} (p v : Byte) (ha : regOperand s.cfg.regIndex a = some i) :
      Effect s (.sub a b) ((s.setReg i v).setPc p)
  | div {a b : Byte} {i : RegIx} (p v : Byte) (ha : regOperand s.cfg.regIndex a = some i) :
      Effect s (.div a b) ((s.setReg i v).setPc p)
  | divZero {a b : Byte} {j : RegIx} (hb : regOperand s.cfg.regIndex b = some j) (hz : s.reg j = 0#8) :
      Effect s (.div a b) (s.abort .divideByZero)
  | inc {a : Byte} {i : RegIx} (p v : Byte) (ha : regOperand s.cfg.regIndex a = some i) :
      Effect s (.inc a) ((s.setReg i v).setPc p)
  | dec {a : Byte} {i : RegIx} (p v : Byte) (ha : regOperand s.cfg.regIndex a = some i) :
      Effect s (.dec a) ((s.setReg i v).setPc p)
  | cmp {a b : Byte} {i j : RegIx} (p : Byte) (ha : regOperand s.cfg.regIndex a = some i)
      (hb : regOperand s.cfg.regIndex b = some j) :
      Effect s (.cmp a b) ((s.setFlags (compareFlags (s.reg i) (s.reg j))).setPc p)
  | push {a : Byte} {i : RegIx} (p : Byte) (ha : regOperand s.cfg.regIndex a = some i) :
      Effect s (.push a) ((pushReg i s).setPc p)
  | pop {a : Byte} {i : RegIx} (p : Byte) (ha : regOperand s.cfg.regIndex a = some i) :
      Effect s (.pop a) ((popReg i s).setPc p)
  | jmp {a : Byte} (p : Byte) : Effect s (.jmp a) (s.setPc p)
  | jeq {a : Byte} (p : Byte) : Effect s (.jeq a) (s.setPc p)
  | jne {a : Byte} (p : Byte) : Effect s (.jne a) (s.setPc p)

/-- A two-register ALU handler other than DIV and CMP writes x[a] and pc. -/
theorem aluTwo_writes {ir : Byte} {op : AluOp} {a b : Byte} {s t : State} (h : aluTwo ir op a b s = .next t)
    (hc : op ≠ .cmp) (hd : op ≠ .div) (hu : op ≠ .unsupported) :
    ∃ i v p, regOperand s.cfg.regIndex a = some i ∧ t = (s.setReg i v).setPc p := by
  obtain ⟨i, j, hi, -, ⟨u, p, hu', rfl⟩ | ⟨c, hr, -⟩⟩ := aluTwo_next h
  · obtain ⟨-, v, rfl⟩ | ⟨rfl, -⟩ := alu_done hu'
    · exact ⟨i, v, p, hi, rfl⟩
    · exact absurd rfl hc
  · obtain ⟨rfl, -⟩ | ⟨rfl, -⟩ := alu_raise hr
    · exact absurd rfl hd
    · exact absurd rfl hu

/-- A one-register ALU handler other than DIV and CMP writes x[a] and pc. -/
theorem aluOne_writes {ir : Byte} {op : AluOp} {a : Byte} {s t : State} (h : aluOne ir op a s = .next t)
    (hc : op ≠ .cmp) (hd : op ≠ .div) (hu : op ≠ .unsupported) :
    ∃ i v p, regOperand s.cfg.regIndex a = some i ∧ t = (s.setReg i v).setPc p := by
  obtain ⟨i, hi, ⟨u, p, hu', rfl⟩ | ⟨c, hr, -⟩⟩ := aluOne_next h
  · obtain ⟨-, v, rfl⟩ | ⟨rfl, -⟩ := alu_done hu'
    · exact ⟨i, v, p, hi, rfl⟩
    · exact absurd rfl hc
  · obtain ⟨rfl, -⟩ | ⟨rfl, -⟩ := alu_raise hr
    · exact absurd rfl hd
    · exact absurd rfl hu

/-- A taken jump changes pc only. -/
theorem jumpTo_next {a : Byte} {s t : State} (h : jumpTo a s = .next t) :
    ∃ i, regOperand s.cfg.regIndex a = some i ∧ t = s.setPc (s.reg i) := by
  obtain ⟨i, hi, h⟩ := withReg_next h
  cases h
  exact ⟨i, hi, rfl⟩

/-- Everything exec can do when it answers a next state. -/
theorem exec_effect {i : Instr} {s t : State} (h : exec i s = .next t) : Effect s i t := by
  cases i with
  | hlt =>
    obtain ⟨p, rfl⟩ := advance_next (ir := Op.hlt.byte) (s := s.halt) h
    exact .hlt p
  | ldi a b =>
    obtain ⟨i, hi, h⟩ := withReg_next h
    obtain ⟨p, rfl⟩ := advance_next h
    exact .ldi p hi
  | prn a =>
    obtain ⟨i, hi, h⟩ := withReg_next h
    obtain ⟨p, rfl⟩ := advance_next h
    exact .prn p hi
  | mul a b =>
    obtain ⟨i, v, p, hi, rfl⟩ := aluTwo_writes h (by decide) (by decide) (by decide)
    exact .mul p v hi
  | sub a b =>
    obtain ⟨i, v, p, hi, rfl⟩ := aluTwo_writes h (by decide) (by decide) (by decide)
    exact .sub p v hi
  | div a b =>
    obtain ⟨i, j, hi, hj, ⟨u, p, hu, rfl⟩ | ⟨c, hr, rfl⟩⟩ := aluTwo_next h
    · obtain ⟨-, v, rfl⟩ | ⟨hc, -⟩ := alu_done hu
      · exact .div p v hi
      · cases hc
    · obtain ⟨-, hz, rfl⟩ | ⟨hc, -⟩ := alu_raise hr
      · exact .divZero hj hz
      · cases hc
  | inc a =>
    obtain ⟨i, v, p, hi, rfl⟩ := aluOne_writes h (by decide) (by decide) (by decide)
    exact .inc p v hi
  | dec a =>
    obtain ⟨i, v, p, hi, rfl⟩ := aluOne_writes h (by decide) (by decide) (by decide)
    exact .dec p v hi
  | cmp a b =>
    obtain ⟨i, j, hi, hj, ⟨u, p, hu, rfl⟩ | ⟨c, hr, rfl⟩⟩ := aluTwo_next h
    · obtain ⟨hc, -⟩ | ⟨-, rfl⟩ := alu_done hu
      · exact absurd rfl hc
      · exact .cmp p hi hj
    · obtain ⟨hc, -⟩ | ⟨hc, -⟩ := alu_raise hr <;> cases hc
  | push a =>
    obtain ⟨i, hi, h⟩ := withReg_next h
    obtain ⟨p, rfl⟩ := advance_next h
    exact .push p hi
  | pop a =>
    obtain ⟨i, hi, h⟩ := withReg_next h
    obtain ⟨p, rfl⟩ := advance_next h
    exact .pop p hi
  | jmp a =>
    obtain ⟨i, -, rfl⟩ := jumpTo_next h
    exact .jmp _
  | jeq a =>
    change execJeq a s = .next t at h
    unfold execJeq at h
    split at h
    · obtain ⟨i, -, rfl⟩ := jumpTo_next h
      exact .jeq _
    · rw [movePc_next h]
      exact .jeq _
  | jne a =>
    change execJne a s = .next t at h
    unfold execJne at h
    split at h
    · rw [movePc_next h]
      exact .jne _
    · obtain ⟨i, -, rfl⟩ := jumpTo_next h
      exact .jne _

/-- Everything a byte with no row can do when it answers a next state: pc moves, or exposed ADD writes one register. -/
theorem execUnlisted_next {ir opa opb : Byte} {s t : State} (h : execUnlisted ir opa opb s = .next t) :
    (∃ p, t = s.setPc p) ∨
      (s.cfg.exposeAdd = true ∧ ir = addByte ∧
        ∃ i v p, regOperand s.cfg.regIndex opa = some i ∧ t = (s.setReg i v).setPc p) := by
  unfold execUnlisted at h
  split at h
  · rename_i hx
    exact .inr ⟨hx.1, hx.2, aluTwo_writes h (by decide) (by decide) (by decide)⟩
  · exact .inl (advance_next h)

/-- A Running step is a cycle. -/
theorem step_of_running {s : State} (hr : s.run = .running) : step s = cycle s := by
  simp only [step, hr]

/-- A cycle whose operand reads do not overrun dispatches the three bytes at pc. -/
theorem cycle_of_fits {s : State} (h : s.pc.toNat + 2 ≤ 255 ∨ s.cfg.addrOverrun = .wrap) :
    cycle s = dispatch (s.readByte s.pc) (s.readByte (s.pc + 1#8)) (s.readByte (s.pc + 2#8)) s := by
  rw [cycle, if_neg]
  simp only [fetchOverruns, decide_eq_true_eq]
  rintro ⟨h1, h2⟩
  rcases h with h | h
  · omega
  · simp [h2] at h

/-- Everything a Running step can do when it answers a next state. -/
theorem step_running_next {s t : State} (hr : s.run = .running) (h : step s = .next t) :
    (∃ i rest, decode s.fetched = .ok (i, rest) ∧ i.op.byte = s.readByte s.pc ∧ exec i s = .next t) ∨
      (decodeOp (s.readByte s.pc) = none ∧
        execUnlisted (s.readByte s.pc) (s.readByte (s.pc + 1#8)) (s.readByte (s.pc + 2#8)) s = .next t) := by
  have hc : cycle s = .next t := step_of_running hr ▸ h
  obtain ⟨-, -, hf⟩ | ⟨i, rest, hd, hb, he⟩ | ⟨hu, he⟩ := cycle_cases s
  · simp [hf] at hc
  · exact .inl ⟨i, rest, hd, hb, he ▸ hc⟩
  · exact .inr ⟨hu, he ▸ hc⟩

/-- A step from a state that is not Running changes at most the run state, from waiting. -/
theorem step_not_running {s : State} (hr : s.run ≠ .running) :
    step s = .next (if s.run = .waiting then s.start else s) := by
  unfold step
  split <;> simp_all

/-! ### Registers and cells after PUSH and POP -/

theorem pushReg_reg (i k : RegIx) (s : State) (h : k ≠ spIx) : (pushReg i s).reg k = s.reg k := by
  simp [pushReg, State.reg_setReg_other _ _ h]

theorem pushReg_readByte (i : RegIx) (s : State) {k : Byte} (h : k ≠ s.pushAddr) :
    (pushReg i s).readByte k = s.readByte k := by
  have hsp : (s.setReg spIx s.pushAddr).sp = s.pushAddr := State.reg_setReg_same ..
  simp only [pushReg, hsp]
  rw [State.readByte_writeByte_other _ _ h]
  rfl

theorem popReg_reg (i k : RegIx) (s : State) (h : k ≠ spIx) (hi : k ≠ i) : (popReg i s).reg k = s.reg k := by
  simp only [popReg]
  rw [State.reg_setReg_other _ _ h, State.reg_setReg_other _ _ hi]

theorem popReg_readByte (i : RegIx) (s : State) (k : Byte) : (popReg i s).readByte k = s.readByte k := rfl

end Sys2Proof.Machine
end

