-- ==== Sys2Proof/Laws/Envelope.lean ====
section
/-! SUPPORT. What the envelope's watch records in one cycle, and what a run judged inside the envelope keeps (70_reset_and_hazards.md
R181). -/

namespace Sys2Proof.Machine

open Sys2Proof

/-- The three fetched bytes decode to the row their first byte names. -/
theorem fetched_of_head {o : Op} {s : State} (h : s.readByte s.pc = o.byte) :
    ∃ i rest, decode s.fetched = .ok (i, rest) ∧ i.op = o := by
  obtain ⟨i, rest, hi⟩ := takeOperands_two o (s.readByte (s.pc + 1#8)) (s.readByte (s.pc + 2#8))
  exact ⟨i, rest, by simp only [State.fetched, decode, h, decodeOp_byte, hi], (takeOperands_ok hi).1⟩

theorem fetched_push {s : State} (h : s.readByte s.pc = 0x45#8) : ∃ a rest, decode s.fetched = .ok (.push a, rest) := by
  obtain ⟨i, rest, hd, ho⟩ := fetched_of_head (o := .push) h
  cases i <;> cases ho
  exact ⟨_, _, hd⟩

theorem fetched_pop {s : State} (h : s.readByte s.pc = 0x46#8) : ∃ a rest, decode s.fetched = .ok (.pop a, rest) := by
  obtain ⟨i, rest, hd, ho⟩ := fetched_of_head (o := .pop) h
  cases i <;> cases ho
  exact ⟨_, _, hd⟩

theorem observe_push (w : EnvelopeWatch) {s : State} (h : s.readByte s.pc = 0x45#8) :
    w.observe s = { w with
      stored := s.pushAddr.toNat :: w.stored
      ok := w.ok && (fetchAddrs s).all (fun a => !w.stored.contains a) && decide (s.sp ≠ 0#8) &&
        decide (w.imageLen ≤ s.pushAddr.toNat) } := by
  obtain ⟨a, rest, hd⟩ := fetched_push h
  simp only [EnvelopeWatch.observe, hd]

theorem observe_pop (w : EnvelopeWatch) {s : State} (h : s.readByte s.pc = 0x46#8) :
    w.observe s = { w with
      ok := w.ok && (fetchAddrs s).all (fun a => !w.stored.contains a) && decide (s.sp ≠ 255#8) } := by
  obtain ⟨a, rest, hd⟩ := fetched_pop h
  simp only [EnvelopeWatch.observe, hd]

@[simp] theorem observe_imageLen (w : EnvelopeWatch) (s : State) : (w.observe s).imageLen = w.imageLen := by
  unfold EnvelopeWatch.observe
  split <;> rfl

/-- The watch forgets no address. -/
theorem stored_subset_observe (w : EnvelopeWatch) (s : State) : w.stored ⊆ (w.observe s).stored := by
  unfold EnvelopeWatch.observe
  split <;> simp

/-- A watch that is ok after a cycle was ok before it, and the cycle fetched no recorded address. -/
theorem observe_ok {w : EnvelopeWatch} {s : State} (h : (w.observe s).ok = true) :
    w.ok = true ∧ s.pc.toNat ∉ w.stored ∧ (s.pc + 1#8).toNat ∉ w.stored ∧ (s.pc + 2#8).toNat ∉ w.stored := by
  have h2 : (w.ok && (fetchAddrs s).all (fun a => !w.stored.contains a)) = true := by
    unfold EnvelopeWatch.observe at h
    split at h <;> simp only [Bool.and_eq_true] at h ⊢ <;> tauto
  simpa [fetchAddrs] using h2

/-- A state judged inside the envelope has an ok watch and a pc at no recorded address; a Running one's cycle leaves the watch ok. -/
theorem insideEnvelope_here {n : Nat} {w : EnvelopeWatch} {s : State} (h : insideEnvelope n w s = true) :
    w.ok = true ∧ s.pc.toNat ∉ w.stored ∧ (0 < n → s.run = .running → (w.observe s).ok = true) := by
  induction n generalizing w s with
  | zero => simpa [insideEnvelope] using h
  | succ n ih =>
    unfold insideEnvelope at h
    split at h
    · have hok : (w.observe s).ok = true := by
        split at h
        · exact (ih h).1
        · exact h
        · exact h
      exact ⟨(observe_ok hok).1, (observe_ok hok).2.1, fun _ _ => hok⟩
    · rename_i hr
      split at h
      · exact ⟨(ih h).1, (ih h).2.1, fun _ h' => absurd h' hr⟩
      · simp only [Bool.and_eq_true, Bool.not_eq_true', List.contains_eq_mem, decide_eq_false_iff_not] at h
        exact ⟨h.1, h.2, fun _ h' => absurd h' hr⟩

/-- The rest of a run judged inside the envelope is inside it too, with the watch after the step. -/
theorem insideEnvelope_step {n : Nat} {w : EnvelopeWatch} {s t : State} (h : insideEnvelope (n + 1) w s = true)
    (hs : step s = .next t) : insideEnvelope n (if s.run = .running then w.observe s else w) t = true := by
  unfold insideEnvelope at h
  split at h
  · rename_i hr
    simpa [hs, hr] using h
  · rename_i hr
    rw [step_not_running hr, Host.Outcome.next.injEq] at hs
    subst hs
    split at h
    · rename_i hw
      simpa [hr, hw] using h
    · rename_i hw
      rw [if_neg hr, if_neg hw]
      cases n <;> simpa only [insideEnvelope, if_neg hr, if_neg hw] using h

end Sys2Proof.Machine
end

