-- ==== Sys2Proof/Laws/PerInstr.lean ====
section
/-! SUPPORT. The per-instruction family Layout: an encoding is one opcode byte of the instruction's own row, followed by as many
operand bytes as bits 7:6 of that byte declare (30_encoding.md R60, R63). -/

namespace Sys2Proof.Laws.Layout

open Sys2Proof

/-- The first byte is the row's key, the length is N + 1, and bit 4 is set exactly for the jumps (30_encoding.md R67 (b), (c)). -/
def Statement (i : Instr) : Prop :=
  (encode i).head? = some i.op.byte ∧ (encode i).length = operandCount i.op.byte + 1 ∧
    (selfAdvance i.op.byte = true ↔ i.op = .jmp ∨ i.op = .jeq ∨ i.op = .jne)

theorem hlt : Statement .hlt :=
  ⟨rfl, by simp [encode, Instr.operands, Instr.op], Op.selfAdvance_iff .hlt⟩

theorem ldi (a b : Byte) : Statement (.ldi a b) :=
  ⟨rfl, by simp [encode, Instr.operands, Instr.op], Op.selfAdvance_iff .ldi⟩

theorem prn (a : Byte) : Statement (.prn a) :=
  ⟨rfl, by simp [encode, Instr.operands, Instr.op], Op.selfAdvance_iff .prn⟩

theorem mul (a b : Byte) : Statement (.mul a b) :=
  ⟨rfl, by simp [encode, Instr.operands, Instr.op], Op.selfAdvance_iff .mul⟩

theorem sub (a b : Byte) : Statement (.sub a b) :=
  ⟨rfl, by simp [encode, Instr.operands, Instr.op], Op.selfAdvance_iff .sub⟩

theorem div (a b : Byte) : Statement (.div a b) :=
  ⟨rfl, by simp [encode, Instr.operands, Instr.op], Op.selfAdvance_iff .div⟩

theorem inc (a : Byte) : Statement (.inc a) :=
  ⟨rfl, by simp [encode, Instr.operands, Instr.op], Op.selfAdvance_iff .inc⟩

theorem dec (a : Byte) : Statement (.dec a) :=
  ⟨rfl, by simp [encode, Instr.operands, Instr.op], Op.selfAdvance_iff .dec⟩

theorem cmp (a b : Byte) : Statement (.cmp a b) :=
  ⟨rfl, by simp [encode, Instr.operands, Instr.op], Op.selfAdvance_iff .cmp⟩

theorem push (a : Byte) : Statement (.push a) :=
  ⟨rfl, by simp [encode, Instr.operands, Instr.op], Op.selfAdvance_iff .push⟩

theorem pop (a : Byte) : Statement (.pop a) :=
  ⟨rfl, by simp [encode, Instr.operands, Instr.op], Op.selfAdvance_iff .pop⟩

theorem jmp (a : Byte) : Statement (.jmp a) :=
  ⟨rfl, by simp [encode, Instr.operands, Instr.op], Op.selfAdvance_iff .jmp⟩

theorem jeq (a : Byte) : Statement (.jeq a) :=
  ⟨rfl, by simp [encode, Instr.operands, Instr.op], Op.selfAdvance_iff .jeq⟩

theorem jne (a : Byte) : Statement (.jne a) :=
  ⟨rfl, by simp [encode, Instr.operands, Instr.op], Op.selfAdvance_iff .jne⟩

end Sys2Proof.Laws.Layout
end

