-- ==== Sys2Proof/Tests/Slice0.lean ====
section
/-! SUPPORT. The model's own tests: the WellFormed smoke tests, every constructor's decoding from a word written out from
30_encoding.md R66, one-step vectors of 95_test_vectors.md (named V<n> there), and a witness for the hypotheses of every statement of
Certificates/Slice0/Obligations.lean. Expected values are the spec's. -/

namespace Sys2Proof.Tests

open Sys2Proof Sys2Proof.Machine

/-! ### Helpers -/

/-- The result is a next state of which `p` holds. -/
def nextIs (r : Result) (p : State → Bool) : Bool :=
  match r with
  | .next t => p t
  | .fault _ => false
  | .refused _ => false

/-- The result is this fault. -/
def faultIs (r : Result) (f : Fault) : Bool :=
  match r with
  | .next _ => false
  | .fault g => decide (g = f)
  | .refused _ => false

/-- Bytes stored from address `a` upward. -/
def store (a : Byte) : List Byte → State → State
  | [], s => s
  | v :: vs, s => store (a + 1#8) vs (s.writeByte a v)

/-- The start state of 95_test_vectors.md Part 2: reset, Running, pc = 0x10. -/
def base : State := { State.reset with run := .running, pc := 0x10#8 }

/-- The start state with a vector's bytes stored from its pc. -/
def at10 (bytes : List Byte) : State := store 0x10#8 bytes base

/-- The alternative policies, with ADD exposed. -/
def open3 : Config := { exposeAdd := true, addrOverrun := .wrap, regIndex := .mask3 }

/-! ### WellFormed: one ill-formed term for each check -/

theorem test_wf_refuses_prn : (Instr.prn 8#8).wellFormed = false ∧ (Instr.prn 7#8).wellFormed = true := by decide

theorem test_wf_refuses_inc : (Instr.inc 8#8).wellFormed = false ∧ (Instr.inc 7#8).wellFormed = true := by decide

theorem test_wf_refuses_dec : (Instr.dec 8#8).wellFormed = false ∧ (Instr.dec 7#8).wellFormed = true := by decide

theorem test_wf_refuses_push : (Instr.push 8#8).wellFormed = false ∧ (Instr.push 7#8).wellFormed = true := by decide

theorem test_wf_refuses_pop : (Instr.pop 8#8).wellFormed = false ∧ (Instr.pop 7#8).wellFormed = true := by decide

theorem test_wf_refuses_jmp : (Instr.jmp 8#8).wellFormed = false ∧ (Instr.jmp 7#8).wellFormed = true := by decide

theorem test_wf_refuses_jeq : (Instr.jeq 8#8).wellFormed = false ∧ (Instr.jeq 7#8).wellFormed = true := by decide

theorem test_wf_refuses_jne : (Instr.jne 8#8).wellFormed = false ∧ (Instr.jne 7#8).wellFormed = true := by decide

theorem test_wf_refuses_mul :
    (Instr.mul 8#8 0#8).wellFormed = false ∧ (Instr.mul 0#8 255#8).wellFormed = false ∧
      (Instr.mul 7#8 7#8).wellFormed = true := by decide

theorem test_wf_refuses_sub :
    (Instr.sub 8#8 0#8).wellFormed = false ∧ (Instr.sub 0#8 255#8).wellFormed = false ∧
      (Instr.sub 7#8 7#8).wellFormed = true := by decide

theorem test_wf_refuses_div :
    (Instr.div 8#8 0#8).wellFormed = false ∧ (Instr.div 0#8 255#8).wellFormed = false ∧
      (Instr.div 7#8 7#8).wellFormed = true := by decide

theorem test_wf_refuses_cmp :
    (Instr.cmp 8#8 0#8).wellFormed = false ∧ (Instr.cmp 0#8 255#8).wellFormed = false ∧
      (Instr.cmp 7#8 7#8).wellFormed = true := by decide

/-- LDI's b is an immediate: every value is legal (R64). -/
theorem test_wf_refuses_ldi :
    (Instr.ldi 8#8 0#8).wellFormed = false ∧ (Instr.ldi 7#8 255#8).wellFormed = true := by decide

theorem test_wf_hlt : Instr.hlt.wellFormed = true := by decide

/-! ### Decoding: the encodings of 30_encoding.md R66 written out bit by bit -/

theorem test_decode_hlt :
    decode [0b00000001#8] = .ok (.hlt, []) ∧
      decodeTableWord 8 0x1 = some (.hlt) := by decide

theorem test_decode_ldi :
    decode [0b10000010#8, 0b00000011#8, 0b00000101#8] = .ok (.ldi 0b00000011#8 0b00000101#8, []) ∧
      decodeTableWord 24 0x50382 = some (.ldi 0b00000011#8 0b00000101#8) := by decide

theorem test_decode_prn :
    decode [0b01000111#8, 0b00000011#8] = .ok (.prn 0b00000011#8, []) ∧
      decodeTableWord 16 0x347 = some (.prn 0b00000011#8) := by decide

theorem test_decode_mul :
    decode [0b10100010#8, 0b00000011#8, 0b00000101#8] = .ok (.mul 0b00000011#8 0b00000101#8, []) ∧
      decodeTableWord 24 0x503A2 = some (.mul 0b00000011#8 0b00000101#8) := by decide

theorem test_decode_sub :
    decode [0b10100001#8, 0b00000011#8, 0b00000101#8] = .ok (.sub 0b00000011#8 0b00000101#8, []) ∧
      decodeTableWord 24 0x503A1 = some (.sub 0b00000011#8 0b00000101#8) := by decide

theorem test_decode_div :
    decode [0b10100011#8, 0b00000011#8, 0b00000101#8] = .ok (.div 0b00000011#8 0b00000101#8, []) ∧
      decodeTableWord 24 0x503A3 = some (.div 0b00000011#8 0b00000101#8) := by decide

theorem test_decode_inc :
    decode [0b01100101#8, 0b00000011#8] = .ok (.inc 0b00000011#8, []) ∧
      decodeTableWord 16 0x365 = some (.inc 0b00000011#8) := by decide

theorem test_decode_dec :
    decode [0b01100110#8, 0b00000011#8] = .ok (.dec 0b00000011#8, []) ∧
      decodeTableWord 16 0x366 = some (.dec 0b00000011#8) := by decide

theorem test_decode_cmp :
    decode [0b10100111#8, 0b00000011#8, 0b00000101#8] = .ok (.cmp 0b00000011#8 0b00000101#8, []) ∧
      decodeTableWord 24 0x503A7 = some (.cmp 0b00000011#8 0b00000101#8) := by decide

theorem test_decode_push :
    decode [0b01000101#8, 0b00000011#8] = .ok (.push 0b00000011#8, []) ∧
      decodeTableWord 16 0x345 = some (.push 0b00000011#8) := by decide

theorem test_decode_pop :
    decode [0b01000110#8, 0b00000011#8] = .ok (.pop 0b00000011#8, []) ∧
      decodeTableWord 16 0x346 = some (.pop 0b00000011#8) := by decide

theorem test_decode_jmp :
    decode [0b01010100#8, 0b00000011#8] = .ok (.jmp 0b00000011#8, []) ∧
      decodeTableWord 16 0x354 = some (.jmp 0b00000011#8) := by decide

theorem test_decode_jeq :
    decode [0b01010101#8, 0b00000011#8] = .ok (.jeq 0b00000011#8, []) ∧
      decodeTableWord 16 0x355 = some (.jeq 0b00000011#8) := by decide

theorem test_decode_jne :
    decode [0b01010110#8, 0b00000011#8] = .ok (.jne 0b00000011#8, []) ∧
      decodeTableWord 16 0x356 = some (.jne 0b00000011#8) := by decide

/-- Unknown opcodes are rejected by name (R69; V60, V63, V64, V69). -/
theorem test_decode_unknown :
    decode [0x00#8] = .error (.unknownOpcode 0x00#8) ∧ decode [0xA0#8, 0#8, 1#8] = .error (.unknownOpcode 0xA0#8) ∧
      decode [0xC0#8] = .error (.unknownOpcode 0xC0#8) ∧ decode [0x81#8] = .error (.unknownOpcode 0x81#8) := by decide

/-- How many of the 64 bytes with operand count n are unknown, with bit 4 as given. -/
def unknownCount (n : Nat) (c : Bool) : Nat :=
  ((List.range 64).filter (fun k =>
    (decodeOp (BitVec.ofNat 8 (64 * n + k))).isNone && selfAdvance (BitVec.ofNat 8 (64 * n + k)) == c)).length

/-- The table of R69. -/
theorem test_unknown_counts_advancing :
    unknownCount 0 false = 31 ∧ unknownCount 1 false = 27 ∧ unknownCount 2 false = 27 ∧ unknownCount 3 false = 32 := by decide

theorem test_unknown_counts_livelock :
    unknownCount 0 true = 32 ∧ unknownCount 1 true = 29 ∧ unknownCount 2 true = 32 ∧ unknownCount 3 true = 32 := by decide

/-- Bits above nbits are zero: an opcode byte alone has operand bytes 0. -/
theorem test_decode_table_word_short : decodeTableWord 8 0xFF82 = some (.ldi 0#8 0#8) := by decide

/-! ### One-step vectors of 95_test_vectors.md -/

theorem test_v1_hlt : nextIs (step (at10 [0x01#8])) (fun t => t.run == .halted && t.pc == 0x11#8) = true := by decide

theorem test_v2_ldi : nextIs (step (at10 [0x82#8, 0#8, 8#8])) (fun t => t.reg 0 == 8#8 && t.pc == 0x13#8) = true := by decide

theorem test_v4_ldi_sp : nextIs (step (at10 [0x82#8, 7#8, 0x80#8])) (fun t => t.sp == 128#8) = true := by decide

theorem test_v6_prn :
    nextIs (step ((at10 [0x47#8, 0#8]).setReg 0 72#8)) (fun t => t.out == [72#8] && t.pc == 0x12#8) = true := by decide

theorem test_v13_mul :
    nextIs (step (((at10 [0xA2#8, 0#8, 1#8]).setReg 0 255#8).setReg 1 255#8)) (fun t => t.reg 0 == 1#8) = true := by decide

theorem test_v14_mul_same :
    nextIs (step ((at10 [0xA2#8, 2#8, 2#8]).setReg 2 15#8)) (fun t => t.reg 2 == 225#8) = true := by decide

theorem test_v17_sub :
    nextIs (step (((at10 [0xA1#8, 0#8, 1#8]).setReg 0 5#8).setReg 1 7#8)) (fun t => t.reg 0 == 254#8) = true := by decide

theorem test_v19_sub_same :
    nextIs (step ((at10 [0xA1#8, 3#8, 3#8]).setReg 3 99#8)) (fun t => t.reg 3 == 0#8) = true := by decide

theorem test_v21_div :
    nextIs (step (((at10 [0xA3#8, 0#8, 1#8]).setReg 0 7#8).setReg 1 2#8)) (fun t => t.reg 0 == 3#8) = true := by decide

theorem test_v24_div_zero :
    nextIs (step ((at10 [0xA3#8, 0#8, 1#8]).setReg 0 7#8))
      (fun t => t.run == .aborted .divideByZero && t.pc == 0x10#8 && t.reg 0 == 7#8) = true := by decide

theorem test_v31_inc_sp : nextIs (step (at10 [0x65#8, 7#8])) (fun t => t.sp == 0#8 && t.pc == 0x12#8) = true := by decide

theorem test_v33_dec : nextIs (step (at10 [0x66#8, 0#8])) (fun t => t.reg 0 == 255#8) = true := by decide

theorem test_v35_alu_add :
    (match alu .add 2 3 ((base.setReg 2 200#8).setReg 3 100#8) with
      | .done t => t.reg 2 == 44#8
      | .raise _ => false) = true := by decide

theorem test_v37_add_unexposed :
    nextIs (step (((at10 [0xA0#8, 0#8, 1#8]).setReg 0 200#8).setReg 1 100#8))
      (fun t => t.pc == 0x13#8 && t.reg 0 == 200#8) = true := by decide

theorem test_v38_add_exposed :
    nextIs (step { ((at10 [0xA0#8, 0#8, 1#8]).setReg 0 200#8).setReg 1 100#8 with cfg := open3 })
      (fun t => t.pc == 0x13#8 && t.reg 0 == 44#8) = true := by decide

theorem test_v43_cmp_unsigned :
    nextIs (step (((at10 [0xA7#8, 0#8, 1#8]).setReg 0 0x80#8).setReg 1 0x7F#8))
      (fun t => t.fl == { l := false, g := true, e := false }) = true := by decide

theorem test_v46_cmp_clears :
    nextIs (step ((((at10 [0xA7#8, 0#8, 1#8]).setReg 0 1#8).setReg 1 2#8).setFlags { l := false, g := false, e := true }))
      (fun t => t.fl == { l := true, g := false, e := false }) = true := by decide

theorem test_v54_push_sp :
    nextIs (step (at10 [0x45#8, 7#8])) (fun t => t.sp == 254#8 && t.readByte 254#8 == 254#8) = true := by decide

theorem test_v57_push_wraps :
    nextIs (step (((at10 [0x45#8, 0#8]).setReg 7 0#8).setReg 0 9#8))
      (fun t => t.sp == 255#8 && t.readByte 255#8 == 9#8) = true := by decide

theorem test_v51_pop :
    nextIs (step (((at10 [0x46#8, 0#8]).setReg 7 254#8).writeByte 254#8 5#8))
      (fun t => t.reg 0 == 5#8 && t.sp == 255#8 && t.readByte 254#8 == 5#8) = true := by decide

theorem test_v56_pop_sp :
    nextIs (step (((at10 [0x46#8, 7#8]).setReg 7 0x80#8).writeByte 0x80#8 0x20#8)) (fun t => t.sp == 0x21#8) = true := by decide

/-- V59: the store hits the byte after the PUSH; the next cycle fetches it and halts. -/
theorem test_v59_push_into_program :
    nextIs (step (((at10 [0x45#8, 0#8, 0#8]).setReg 7 0x13#8).setReg 0 0x01#8))
      (fun t => t.pc == 0x12#8 && nextIs (step t) (fun u => u.run == .halted && u.pc == 0x13#8)) = true := by decide

theorem test_v64_unknown_three : nextIs (step (at10 [0xC0#8])) (fun t => t == (at10 [0xC0#8]).setPc 0x14#8) = true := by decide

theorem test_v66_livelock : nextIs (step (at10 [0x50#8])) (fun t => t == at10 [0x50#8]) = true := by decide

theorem test_v78_jmp : nextIs (step (at10 [0x54#8, 7#8])) (fun t => t.pc == 255#8) = true := by decide

theorem test_v72_jeq :
    nextIs (step (((at10 [0x55#8, 2#8]).setReg 2 0x30#8).setFlags { l := false, g := false, e := true }))
      (fun t => t.pc == 0x30#8) = true := by decide

theorem test_v79_jeq_not_taken : nextIs (step (at10 [0x55#8, 9#8])) (fun t => t.pc == 0x12#8) = true := by decide

theorem test_v77_jne : nextIs (step ((at10 [0x56#8, 2#8]).setReg 2 0x30#8)) (fun t => t.pc == 0x30#8) = true := by decide

theorem test_v76_jne_not_taken :
    nextIs (step (((at10 [0x56#8, 2#8]).setReg 2 9#8).setFlags { l := false, g := false, e := true }))
      (fun t => t.pc == 0x12#8) = true := by decide

theorem test_v80_hlt_at_253 :
    nextIs (step ((base.setPc 253#8).writeByte 253#8 1#8)) (fun t => t.run == .halted && t.pc == 254#8) = true := by decide

theorem test_v81_hlt_at_254 :
    faultIs (step ((base.setPc 254#8).writeByte 254#8 1#8)) .addrOverrun = true ∧
      nextIs (step { (base.setPc 254#8).writeByte 254#8 1#8 with cfg := open3 })
        (fun t => t.run == .halted && t.pc == 255#8) = true := by decide

theorem test_v83_advance_overrun :
    faultIs (step (store 253#8 [0x82#8, 0#8, 8#8] (base.setPc 253#8))) .addrOverrun = true ∧
      nextIs (step { store 253#8 [0x82#8, 0#8, 8#8] (base.setPc 253#8) with cfg := open3 })
        (fun t => t.reg 0 == 8#8 && t.pc == 0#8) = true := by decide

theorem test_v87_reg_index :
    faultIs (step ((at10 [0xA2#8, 1#8, 0xFF#8]).setReg 1 3#8)) .regIndex = true ∧
      nextIs (step { (at10 [0xA2#8, 1#8, 0xFF#8]).setReg 1 3#8 with cfg := open3 }) (fun t => t.reg 1 == 253#8) = true := by decide

/-- V88: the index check comes before the division check. -/
theorem test_v88_order :
    faultIs (step ((at10 [0xA3#8, 0#8, 9#8]).setReg 0 7#8)) .regIndex = true ∧
      nextIs (step { (at10 [0xA3#8, 0#8, 9#8]).setReg 0 7#8 with cfg := open3 })
        (fun t => t.run == .aborted .divideByZero) = true := by decide

/-- V90, and the first step of a waiting machine is its start. -/
theorem test_v90_reset :
    nextIs (step State.reset) (fun t => t.run == .running && t.pc == 0#8 && t.sp == 255#8 && t.mem == []) = true := by decide

/-- V91. -/
theorem test_v91_load :
    (match hostLoad [0x82#8, 0x00#8, 0x08#8] State.reset with
      | some t => t.readByte 0#8 == 0x82#8 && t.readByte 1#8 == 0#8 && t.readByte 2#8 == 8#8 && t.readByte 3#8 == 0#8
      | none => false) = true := by decide

/-- V92. -/
theorem test_v92_image :
    imageBytes ["10000010 # LDI R0,8".toList, "00000000".toList, "00001000".toList, "".toList, "# comment only".toList,
      "00000001 # HLT".toList] = some [0x82#8, 0x00#8, 0x08#8, 0x01#8] := by decide

/-- A second load before start: bytes beyond a shorter later image stay (log 26, the model's choice); after start no load. -/
theorem test_second_load :
    (match (hostLoad [1#8, 2#8] State.reset).bind (hostLoad [3#8]) with
      | some t => t.readByte 0#8 == 3#8 && t.readByte 1#8 == 2#8
      | none => false) = true ∧ hostLoad [3#8] base = none := by decide

/-- White space of every kind before a binary digit is not settled either (log 18, the model's choice). -/
theorem test_unsettled_white_space :
    imageLine [Char.ofNat 12, '1'] = .unsettled ∧ imageLine [Char.ofNat 11, '0'] = .unsettled ∧
      imageLine [Char.ofNat 0x3000, '1'] = .unsettled ∧ imageLine ['x', '1'] = .skip := by decide

/-- V93, and the lines the source does not settle are refused (log 18). -/
theorem test_v93_image :
    imageBytes ["0100011100".toList] = some [0x47#8] ∧ imageBytes ["0101".toList] = none ∧
      imageBytes ["  10000010".toList] = none ∧ imageBytes ["hello".toList] = some [] := by decide

/-- The rendering of PRN's output (R102: "the print of 72 is the line 72"), the packed flags (R29) and the cause codes (R155). -/
theorem test_host_views :
    renderOut [72#8, 5#8, 255#8, 0#8] = "72\n5\n255\n0\n".toList ∧
      Flags.packed { l := true, g := false, e := false } = 4#8 ∧
      RunState.causeCode (.aborted .divideByZero) = 1 ∧ RunState.causeCode (.aborted .unsupportedAluOperation) = 2 := by decide

/-- The trace content of R36 (6). -/
theorem test_trace :
    State.traceRecord (at10 [0x82#8, 0#8, 8#8]) =
      some { pc := 0x10#8, ir := 0x82#8, opa := 0#8, opb := 8#8, x := State.reset.x } := by decide

/-- A placed table word is the first instruction after reset. -/
theorem test_withFetchWord :
    nextIs (step (State.reset.withFetchWord 24 0x080082)) (fun t => t.reg 0 == 8#8 && t.pc == 3#8) = true := by decide

/-- P2 stays inside the envelope; P5 leaves it at its PUSH (95_test_vectors.md). -/
theorem test_envelope :
    insideEnvelope 4 { imageLen := 13, stored := [], ok := true }
        (store 0#8 [0x82#8, 0#8, 5#8, 0x45#8, 0#8, 0x82#8, 0#8, 0#8, 0x46#8, 0#8, 0x47#8, 0#8, 0x01#8] State.reset) = true ∧
      insideEnvelope 4 { imageLen := 11, stored := [], ok := true }
        (store 0#8 [0x82#8, 7#8, 0x0A#8, 0x82#8, 0#8, 1#8, 0x45#8, 0#8, 0#8, 0x47#8, 0#8] State.reset) = false := by decide

/-! ### Witnesses: concrete states and operands that meet the hypotheses of each statement together -/

theorem exists_next {r : Result} {p : State → Bool} (h : nextIs r p = true) : ∃ t, r = .next t ∧ p t = true := by
  cases r with
  | next t => exact ⟨t, rfl, h⟩
  | fault f => cases h
  | refused f => cases h

/-- Running at the highest pc from which an F2 instruction advances in range: 252 + 3 = 255. -/
def top3 : State := base.setPc 252#8

/-- Running at 253, the highest pc whose operand reads are in range: an F1 instruction ends at 255, an F2 one overruns. -/
def top2 : State := base.setPc 253#8

/-- top2 with both alternative policies and ADD exposed. -/
def top2Open : State := { top2 with cfg := open3 }

theorem witness_StepRunsTheDecodedInstruction :
    (store 253#8 [0x45#8, 7#8] top2).canFetch ∧
      decode (store 253#8 [0x45#8, 7#8] top2).fetched = .ok (.push 7#8, [0#8]) := by decide

theorem witness_PlacedTableWordIsRunNext :
    top2.mem.wf = true ∧ top2.canAdvance 2 ∧ decodeTableWord 16 0x0745 = some (.push 7#8) := by decide

theorem unknown_of {s : State} {ir : Byte} (h : decodeOp ir = none) (hx : ¬ (s.cfg.exposeAdd = true ∧ ir = addByte)) :
    s.unknownByte ir :=
  ⟨decodeOp_none_iff.mp h, hx⟩

/-- Each clause: bit 4 set; bit 4 clear and the advance in range (253 + 2 = 255); bit 4 clear and overrunning (253 + 4). -/
theorem witness_UnknownOpcodeIsANoOp :
    ((store 253#8 [0x50#8] top2).canFetch ∧ (store 253#8 [0x50#8] top2).unknownByte 0x50#8 ∧ (0x50#8 : Byte).toNat / 16 % 2 = 1) ∧
      ((store 253#8 [0x40#8] top2).unknownByte 0x40#8 ∧ (0x40#8 : Byte).toNat / 16 % 2 = 0 ∧ top2.canAdvance (0x40 / 64 + 1)) ∧
      ((store 253#8 [0xC0#8] top2).unknownByte 0xC0#8 ∧ (0xC0#8 : Byte).toNat / 16 % 2 = 0 ∧
        ¬ top2.canAdvance (0xC0 / 64 + 1)) ∧
      (store 253#8 [0x50#8] top2).readByte top2.pc = 0x50#8 ∧ (store 253#8 [0x40#8] top2).readByte top2.pc = 0x40#8 ∧
      (store 253#8 [0xC0#8] top2).readByte top2.pc = 0xC0#8 :=
  ⟨⟨by decide, unknown_of (by decide) (by decide), by decide⟩, ⟨unknown_of (by decide) (by decide), by decide, by decide⟩,
    ⟨unknown_of (by decide) (by decide), by decide, by decide⟩, by decide, by decide, by decide⟩

theorem witness_UnknownOpcodeWithBitFourLivelocks :
    (at10 [0xFF#8]).canFetch ∧ (at10 [0xFF#8]).unknownByte ((at10 [0xFF#8]).readByte 0x10#8) ∧
      ((at10 [0xFF#8]).readByte 0x10#8).toNat / 16 % 2 = 1 :=
  ⟨by decide, unknown_of (by decide) (by decide), by decide⟩

theorem witness_OperandReadsOverrunAtTheTop :
    ((base.setPc 254#8).run = .running ∧ (base.setPc 254#8).cfg.addrOverrun = .refuse ∧ 254 ≤ (base.setPc 254#8).pc.toNat) ∧
      ({ base.setPc 255#8 with cfg := open3 } : State).cfg.addrOverrun = .wrap ∧
      decode (({ (base.setPc 255#8).writeByte 255#8 1#8 with cfg := open3 } : State).fetched) = .ok (.hlt, [0#8, 0#8]) := by decide

/-- Step 5 reached with bit 4 clear at 253 + 3 = 256, DIV with a non-zero divisor; the not-taken jumps at 254 + 2 = 256. -/
theorem witness_AdvanceOverrunStops :
    (top2.cfg.addrOverrun = .refuse ∧ 255 < top2.pc.toNat + ((Instr.div 0#8 7#8).operands.length + 1) ∧
      (Instr.div 0#8 7#8).wellFormed = true ∧
      ∀ (a b : Byte) (j : RegIx), Instr.div 0#8 7#8 = .div a b → top2.selects b j → top2.reg j ≠ 0#8) ∧
      (255 < (top2.setPc 254#8).pc.toNat + ((Instr.jeq 9#8).operands.length + 1) ∧ (top2.setPc 254#8).fl.e = false) ∧
      (255 < (top2.setPc 254#8).pc.toNat + ((Instr.jne 9#8).operands.length + 1) ∧
        ((top2.setPc 254#8).setFlags { l := false, g := false, e := true }).fl.e = true) := by
  refine ⟨⟨by decide, by decide, by decide, ?_⟩, by decide, by decide⟩
  intro a b j h hj
  cases h
  obtain rfl : (7 : RegIx) = j := Option.some.inj (hj ▸ (by decide : regOperand top2.cfg.regIndex 7#8 = some 7)).symm
  decide

/-- Each clause: an advance, HLT, a jump. -/
theorem witness_AdvanceFollowsBitFour :
    (∃ t, step (at10 [0x65#8, 0#8]) = .next t ∧ (t.run == .running) = true) ∧ (at10 [0x65#8, 0#8]).canFetch ∧
      (∃ t, step (at10 [0x01#8]) = .next t ∧ (t.run == .halted) = true) ∧ (at10 [0x01#8]).canFetch ∧
      (∃ t, step (at10 [0x54#8, 7#8]) = .next t ∧ (t.pc == 255#8) = true) ∧ (at10 [0x54#8, 7#8]).canFetch :=
  ⟨exists_next (by decide), by decide, exists_next (by decide), by decide, exists_next (by decide), by decide⟩

theorem witness_HaltedAndAbortedAreTerminal :
    base.halt.run = .halted ∧ (base.abort .divideByZero).run = .aborted .divideByZero := by decide

theorem witness_WaitingStepIsTheStart : State.reset.run = .waiting := by decide

/-- HLT at the highest pc: 254 + 1. -/
theorem witness_HltHaltsAndAdvances : (base.setPc 254#8).canAdvance 1 ∧ top2Open.canAdvance 3 := by decide

/-- PRN, INC, DEC, PUSH, POP, JMP. One register operand, F1: selected (7, or 255 under mask3) with the advance ending at 255, and out of range under refuse (8). -/
theorem witness_one_register_F1 :
    (top2.selects 7#8 7 ∧ top2.canAdvance 2) ∧ (top2Open.selects 255#8 7 ∧ top2Open.canAdvance 2) ∧
      (top2.cfg.regIndex = .refuse ∧ 7 < (8#8 : Byte).toNat) := by decide

/-- LDI: F2 with one register operand. -/
theorem witness_LdiLoadsTheImmediate :
    (top3.selects 7#8 7 ∧ top3.canAdvance 3) ∧ (top3.cfg.regIndex = .refuse ∧ 7 < (8#8 : Byte).toNat) := by decide

/-- Two register operands, F2: both selected, and each of them out of range (MUL, SUB, CMP, DIV's first and second clauses). -/
theorem witness_two_registers_F2 :
    (top3.selects 0#8 0 ∧ top3.selects 7#8 7 ∧ top3.canAdvance 3 ∧ top3.reg 7 ≠ 0#8 ∧ top3.reg 0 = 0#8) ∧
      (top3.cfg.regIndex = .refuse ∧ (7 < (8#8 : Byte).toNat ∨ 7 < (0#8 : Byte).toNat)) ∧
      (7 < (0#8 : Byte).toNat ∨ 7 < (255#8 : Byte).toNat) := by decide

/-- The same operands under mask3, where 8 selects 0 and 255 selects 7. -/
theorem witness_two_registers_mask3 :
    top2Open.selects 8#8 0 ∧ top2Open.selects 255#8 7 ∧ top2Open.canAdvance 3 := by decide

/-- ADD exposed at 0x10; its index stop; its overrun at 253; and 0xA0 without exposure. -/
theorem witness_AddIsDispatchedOnlyWhenExposed :
    (let s : State := { at10 [0xA0#8, 2#8, 3#8] with cfg := { Config.default with exposeAdd := true } }
     s.canFetch ∧ s.canAdvance 3 ∧ s.readByte s.pc = 0xA0#8 ∧ s.selects (s.readByte (s.pc + 1#8)) 2 ∧
       s.selects (s.readByte (s.pc + 2#8)) 3) ∧
    (let s : State := { at10 [0xA0#8, 2#8, 8#8] with cfg := { Config.default with exposeAdd := true } }
     s.canFetch ∧ s.cfg.regIndex = .refuse ∧ 7 < (s.readByte (s.pc + 2#8)).toNat) ∧
    (let s : State := { store 253#8 [0xA0#8, 2#8, 3#8] top2 with cfg := { Config.default with exposeAdd := true } }
     s.canFetch ∧ ¬ s.canAdvance 3 ∧ s.selects (s.readByte (s.pc + 1#8)) 2 ∧ s.selects (s.readByte (s.pc + 2#8)) 3) ∧
    ((at10 [0xA0#8]).canFetch ∧ (at10 [0xA0#8]).readByte 0x10#8 = 0xA0#8 ∧ (at10 [0xA0#8]).cfg.exposeAdd = false) := by
  decide

/-- Both errors of the ALU arise from a request. -/
theorem witness_AluErrorsAbortPrecisely :
    alu .div 7 0 base = .raise .divideByZero ∧ alu .unsupported 0 0 base = .raise .unsupportedAluOperation := by decide

theorem witness_PushedByteIsReadBack :
    base.mem.wf = true ∧ base.selects 7#8 7 ∧ ∃ t, exec (.push 7#8) base = .next t ∧ (t.sp == 254#8) = true :=
  ⟨by decide, by decide, exists_next (by decide)⟩

theorem witness_PushThenPopRestoresRegisters :
    (base.setPc 251#8).mem.wf = true ∧ (base.setPc 251#8).selects 7#8 7 ∧ (base.setPc 251#8).canAdvance 4 := by decide

/-- JEQ and JNE: taken, not taken with an operand that is no index, taken with one that is none. -/
theorem witness_conditional_jumps :
    (let s := top2.setFlags { l := false, g := false, e := true }
     s.fl.e = true ∧ s.selects 7#8 7 ∧ s.canAdvance 2 ∧ s.cfg.regIndex = .refuse ∧ 7 < (8#8 : Byte).toNat) ∧
      (top2.fl.e = false ∧ top2.selects 7#8 7 ∧ top2.canAdvance 2 ∧ top2.cfg.regIndex = .refuse) := by decide

theorem witness_JumpsFollowTheLatestCompare :
    (base.setPc 250#8).selects 0#8 0 ∧ (base.setPc 250#8).selects 1#8 1 ∧ (base.setPc 250#8).selects 7#8 7 ∧
      (base.setPc 250#8).canAdvance 5 := by decide

theorem witness_LdiThenPrnEmitsTheImmediate : (base.setPc 250#8).selects 7#8 7 ∧ (base.setPc 250#8).canAdvance 5 := by decide

/-- Each register writer completes from base, DIV with a non-zero divisor and with a zero one. -/
theorem witness_RegisterWritersFrame :
    base.selects 0#8 0 ∧ nextIs (exec (.ldi 0#8 7#8) base) (fun _ => true) = true ∧
      nextIs (exec (.mul 0#8 7#8) base) (fun _ => true) = true ∧ nextIs (exec (.sub 0#8 7#8) base) (fun _ => true) = true ∧
      nextIs (exec (.div 0#8 7#8) base) (fun t => t.run == .running) = true ∧
      nextIs (exec (.div 0#8 1#8) base) (fun t => t.run == .aborted .divideByZero) = true ∧
      nextIs (exec (.inc 0#8) base) (fun _ => true) = true ∧ nextIs (exec (.dec 0#8) base) (fun _ => true) = true := by decide

theorem witness_RegisterReadersFrame :
    nextIs (exec .hlt base) (fun _ => true) = true ∧ nextIs (exec (.prn 7#8) base) (fun _ => true) = true ∧
      nextIs (exec (.cmp 0#8 7#8) base) (fun _ => true) = true ∧ nextIs (exec (.jmp 7#8) base) (fun _ => true) = true ∧
      nextIs (exec (.jeq 7#8) base) (fun _ => true) = true ∧ nextIs (exec (.jne 7#8) base) (fun _ => true) = true := by decide

theorem witness_StackFrame :
    base.selects 7#8 7 ∧ nextIs (exec (.push 7#8) base) (fun _ => true) = true ∧
      nextIs (exec (.pop 7#8) base) (fun _ => true) = true := by decide

/-- A step that is a CMP, a PUSH, a PRN, an HLT, a DIV by zero, and one that is none of them: the whole-machine rules' cases. -/
theorem witness_whole_machine_rules :
    nextIs (step (at10 [0xA7#8, 0#8, 7#8])) (fun t => t.fl.l) = true ∧ nextIs (step (at10 [0x45#8, 7#8])) (fun _ => true) = true ∧
      nextIs (step (at10 [0x47#8, 7#8])) (fun t => t.out == [255#8]) = true ∧
      nextIs (step (at10 [0x01#8])) (fun t => t.run == .halted) = true ∧
      nextIs (step (at10 [0xA3#8, 7#8, 0#8])) (fun t => t.run == .aborted .divideByZero) = true ∧
      nextIs (step (at10 [0x65#8, 7#8])) (fun t => t.run == .running) = true ∧ (at10 [0x65#8, 7#8]).run = .running ∧
      (at10 [0xA7#8, 0#8, 7#8]).run = .running := by decide

/-- Two flag values that agree on Equal. -/
theorem witness_LessAndGreaterAreUnobservable :
    (let f : Flags := { l := true, g := false, e := false }
     f.e = (at10 [0x56#8, 7#8]).fl.e ∧ f ≠ (at10 [0x56#8, 7#8]).fl) ∧
      nextIs (step (at10 [0x56#8, 7#8])) (fun t => t.pc == 255#8) = true := by decide

/-- Both faults arise, under the default policies. -/
theorem witness_StepStopsOnlyWhereUnspecified :
    faultIs (step (base.setPc 254#8)) .addrOverrun = true ∧ faultIs (step (at10 [0x65#8, 8#8])) .regIndex = true := by decide

theorem witness_StepIsTotalUnderWrapAndMask3 : top2Open.cfg.addrOverrun = .wrap ∧ top2Open.cfg.regIndex = .mask3 := by decide

theorem witness_AlternativePoliciesExtendTheDefault :
    ({ open3 with exposeAdd := false } : Config).exposeAdd = (at10 [0x45#8, 7#8]).cfg.exposeAdd ∧
      (at10 [0x45#8, 7#8]).cfg.addrOverrun = .refuse ∧ (at10 [0x45#8, 7#8]).cfg.regIndex = .refuse ∧
      nextIs (step (at10 [0x45#8, 7#8])) (fun _ => true) = true := by decide

/-- Under each register policy; a DIV whose divisor is not 0, and one whose divisor is. -/
theorem witness_EveryInstructionCompletes :
    (Instr.div 7#8 0#8).wellFormed = true ∧ top3.canAdvance ((Instr.div 7#8 0#8).operands.length + 1) ∧
      top3.selects 0#8 0 ∧ top2Open.cfg.regIndex = .mask3 ∧ top2Open.canAdvance 3 ∧
      (top3.setReg 0 1#8).selects 0#8 0 ∧ (top3.setReg 0 1#8).reg 0 ≠ 0#8 ∧ (top3.setReg 0 0#8).reg 0 = 0#8 := by decide

/-- A state that meets the invariant, with a listed cell and a flag set, and steps. -/
theorem witness_EveryStepKeepsInvariant :
    ((at10 [0x45#8, 7#8]).setFlags { l := false, g := true, e := false }).Inv ∧
      nextIs (step ((at10 [0x45#8, 7#8]).setFlags { l := false, g := true, e := false })) (fun _ => true) = true :=
  ⟨⟨by decide, .inr (by decide), by decide⟩, by decide⟩

/-- A watch that is ok before and after a PUSH, and after a POP. -/
theorem witness_EnvelopeWatchRecordsEveryStore :
    (EnvelopeWatch.observe { imageLen := 0x12, stored := [], ok := true } (at10 [0x45#8, 7#8])).ok = true ∧
      nextIs (step (at10 [0x45#8, 7#8])) (fun _ => true) = true ∧
      (EnvelopeWatch.observe { imageLen := 0x12, stored := [254], ok := true } ((at10 [0x46#8, 0#8]).setReg 7 254#8)).ok = true ∧
      nextIs (step ((at10 [0x46#8, 0#8]).setReg 7 254#8)) (fun _ => true) = true := by decide

/-- P2 from its first cycle: inside the envelope for 4 steps, the second a PUSH that ends with pc at no stored cell, the fourth a POP. -/
theorem witness_InsideEnvelopeRunBreaksNoClause :
    (let p2 := store 0#8 [0x82#8, 0#8, 5#8, 0x45#8, 0#8, 0x82#8, 0#8, 0#8, 0x46#8, 0#8, 0x47#8, 0#8, 0x01#8]
       { State.reset with run := .running }
     insideEnvelope 4 { imageLen := 13, stored := [], ok := true } p2 = true ∧
      nextIs (Host.Core.run Sys2Proof.core 1 p2)
        (fun p => p.run == .running && p.readByte p.pc == 0x45#8 && p.pushAddr == 254#8) = true ∧
      nextIs (Host.Core.run Sys2Proof.core 3 p2) (fun p => p.run == .running && p.readByte p.pc == 0x46#8) = true ∧
      nextIs (Host.Core.run Sys2Proof.core 4 p2) (fun u => u.pc == 10#8) = true) := by decide

/-- A PUSH whose cycle ends with pc at the cell it stored to leaves the envelope, though its watch is still ok. -/
theorem test_envelope_pc_after_push :
    (let s := (at10 [0x45#8, 0#8]).setReg 7 0x13#8
     (EnvelopeWatch.observe { imageLen := 0x12, stored := [], ok := true } s).ok = true ∧
      insideEnvelope 1 { imageLen := 0x12, stored := [], ok := true } s = false) := by decide

/-- Both clauses: an image of the largest size before start; an image too long; a load after start. -/
theorem witness_LoadPlacesTheImageFromZero :
    State.reset.mem.wf = true ∧ State.reset.run = .waiting ∧ (List.replicate 256 (0#8 : Byte)).length ≤ 256 ∧
      256 < (List.replicate 257 (0#8 : Byte)).length ∧ base.run ≠ .waiting :=
  ⟨by decide, by decide, by rw [List.length_replicate], by rw [List.length_replicate]; decide, by decide⟩

/-- Both clauses on the second premise: the empty line, and characters at both ends of the set's ranges. -/
theorem witness_ImageLineYieldsOneByte :
    ([] : List Char).all isLineSpace = true ∧ [' ', '\t', Char.ofNat 13, Char.ofNat 28, Char.ofNat 0x200A].all isLineSpace = true := by
  decide

end Sys2Proof.Tests
end

section
/-! PROOFS. The byte 0xA0: the ALU operation ADD where EXPOSE_ADD dispatches it, an unknown opcode otherwise (30_encoding.md R68;
42_alu_arithmetic.md R113). -/

namespace Sys2Proof.Machine

open Sys2Proof

variable {s : State}

/-! ### Shared operations that stop -/

/-- An advance that neither fits nor wraps is Unspecified(AddrOverrun) (40_engine_cycle.md R86). -/
theorem movePc_of_overruns {n : Nat} (h : ¬ s.canAdvance n) : movePc n s = .fault .addrOverrun := by
  obtain ⟨-, -, hf⟩ | ⟨hfits, -⟩ := movePc_cases n s
  · exact hf
  · exact absurd hfits h

/-- Under refuse an operand byte above 7, first or second, stops a two-register handler (30_encoding.md R65). -/
theorem withRegs_refuse {a b : Byte} (body : RegIx → RegIx → Result) (hp : s.cfg.regIndex = .refuse)
    (h : 7 < a.toNat ∨ 7 < b.toNat) : withRegs a b s body = .fault .regIndex :=
  withRegs_none body (h.imp (fun ha => regOperand_none_iff.mpr ⟨hp, ha⟩) (fun hb => regOperand_none_iff.mpr ⟨hp, hb⟩))

/-- A two-register handler whose request completes goes on to step 5 in the state the ALU left. -/
theorem aluTwo_of_done {ir a b : Byte} {op : AluOp} {i j : RegIx} {u : State} (ha : s.selects a i) (hb : s.selects b j)
    (hu : alu op i j s = .done u) : aluTwo ir op a b s = advance ir u := by
  rw [aluTwo, withRegs_some _ ha hb, hu, finishAlu]

/-! ### The cycle on a byte with no row -/

/-- A cycle that can fetch and finds a byte with no row runs `execUnlisted`. -/
theorem step_of_unlisted (hf : s.canFetch) (h : decodeOp (s.readByte s.pc) = none) :
    step s = execUnlisted (s.readByte s.pc) (s.readByte (s.pc + 1#8)) (s.readByte (s.pc + 2#8)) s := by
  obtain ⟨hr, hfits⟩ := hf
  rw [step_of_running hr, cycle_of_fits hfits, dispatch_unlisted h]

/-- ADD's byte is no key of the table (30_encoding.md R68). -/
@[simp] theorem decodeOp_addByte : decodeOp addByte = none := by decide

/-- Step 5 on ADD's byte: its two top bits declare two operand bytes and its bit 4 is clear. -/
theorem advance_addByte (s : State) : advance addByte s = movePc 3 s := by
  rw [advance_clear selfAdvance_add, operandCount_add]

/-- Where ADD is exposed, its byte runs the handler of ADD. -/
theorem step_addByte_exposed (hf : s.canFetch) (hb : s.readByte s.pc = addByte) (hx : s.cfg.exposeAdd = true) :
    step s = execAdd (s.readByte (s.pc + 1#8)) (s.readByte (s.pc + 2#8)) s := by
  rw [step_of_unlisted hf (by rw [hb, decodeOp_addByte]), execUnlisted, if_pos ⟨hx, hb⟩]

/-- Where ADD is not exposed, its byte is an unknown opcode: step 5 only. -/
theorem step_addByte_hidden (hf : s.canFetch) (hb : s.readByte s.pc = addByte) (hx : s.cfg.exposeAdd = false) :
    step s = movePc 3 s := by
  rw [step_of_unlisted hf (by rw [hb, decodeOp_addByte]), execUnlisted, if_neg (by simp [hx]), execUnknown, hb,
    advance_addByte]

/-! ### The sum -/

/-- The exact sum's remainder modulo 256 is the byte the ALU stores (42_alu_arithmetic.md R111, R113). -/
theorem addResult_eq_mod (x y : Byte) : addResult x y = BitVec.ofNat 8 ((x.toNat + y.toNat) % 256) := by
  apply BitVec.eq_of_toNat_eq
  simp [addResult]

/-- An ADD request writes the sum to the first register and nothing else. -/
theorem alu_add (i j : RegIx) (s : State) :
    alu .add i j s = .done (s.setReg i (BitVec.ofNat 8 (((s.reg i).toNat + (s.reg j).toNat) % 256))) := by
  rw [alu, addResult_eq_mod]

/-- ADD on two selected registers: the sum, then an advance of 3. -/
theorem execAdd_of_selects {a b : Byte} {i j : RegIx} (ha : s.selects a i) (hb : s.selects b j) :
    execAdd a b s =
      movePc 3 (s.setReg i (BitVec.ofNat 8 (((s.reg i).toNat + (s.reg j).toNat) % 256))) := by
  rw [execAdd, aluTwo_of_done ha hb (alu_add i j s), advance_addByte]

end Sys2Proof.Machine

namespace Sys2Proof.Proofs

open Sys2Proof Sys2Proof.Machine

/-- Settles O24: 0xA0 has no row, so the engine's unlisted arm decides, on EXPOSE_ADD, between ADD's handler and step 5 alone. -/
theorem addIsDispatchedOnlyWhenExposed : Obligations.AddIsDispatchedOnlyWhenExposed := by
  refine ⟨alu_add, ?completes, ?badIndex, ?overruns, ?hidden⟩
  case completes =>
    intro s i j hf hadv hb hx hi hj
    rw [step_addByte_exposed hf hb hx, execAdd_of_selects hi hj]
    exact movePc_of_fits hadv
  case badIndex =>
    intro s hf hb hx hp hop
    rw [step_addByte_exposed hf hb hx]
    exact withRegs_refuse _ hp hop
  case overruns =>
    intro s i j hf hadv hb hx hi hj
    rw [step_addByte_exposed hf hb hx, execAdd_of_selects hi hj]
    exact movePc_of_overruns hadv
  case hidden =>
    intro s hf hadv hb hx
    rw [step_addByte_hidden hf hb hx]
    exact movePc_of_fits hadv

end Sys2Proof.Proofs
end

section
/-! PROOFS. The immediate load LDI (41_system_and_immediate.md R101). -/

namespace Sys2Proof.Machine

open Sys2Proof

variable {s : State}

/-- Under refuse an operand byte above 7 stops a one-register handler (30_encoding.md R65). -/
theorem withReg_refuse {k : Byte} (body : RegIx → Result) (hp : s.cfg.regIndex = .refuse) (h : 7 < k.toNat) :
    withReg k s body = .fault .regIndex :=
  withReg_none body (regOperand_none_iff.mpr ⟨hp, h⟩)

/-- The dispatch of LDI (40_engine_cycle.md R84). -/
theorem exec_ldi (a b : Byte) (s : State) : exec (.ldi a b) s = execLdi a b s := rfl

/-- Step 5 on LDI's byte: format F2, bit 4 clear. -/
theorem advance_ldi (s : State) : advance Op.ldi.byte s = movePc 3 s := by
  rw [advance_clear selfAdvance_ldi, operandCount_ldi]

/-- LDI on a selected register: the immediate as fetched, then an advance of 3. -/
theorem execLdi_of_selects {a : Byte} {i : RegIx} (b : Byte) (ha : s.selects a i) :
    execLdi a b s = movePc 3 (s.setReg i b) := by
  rw [execLdi, withReg_some _ ha, advance_ldi]

end Sys2Proof.Machine

namespace Sys2Proof.Proofs

open Sys2Proof Sys2Proof.Machine

/-- Settles O17: a selected index leaves one register write and an advance of 3; an index refused stops LDI before the write. -/
theorem ldiLoadsTheImmediate : Obligations.LdiLoadsTheImmediate := by
  refine fun a b s => ⟨?loads, ?badIndex⟩
  case loads =>
    intro i ha hadv
    rw [exec_ldi, execLdi_of_selects b ha]
    exact movePc_of_fits hadv
  case badIndex =>
    intro hp hk
    rw [exec_ldi, execLdi]
    exact withReg_refuse _ hp hk

end Sys2Proof.Proofs
end

section
/-! PROOFS. The ALU arithmetic instructions MUL, SUB, INC, DEC (42_alu_arithmetic.md R112, R114, R116, R117). -/

namespace Sys2Proof.Machine

open Sys2Proof

variable {s : State}

/-! ### ALU handlers: a request that completes, an index that is refused -/

/-- A one-register handler whose request completes goes on to step 5 in the state the ALU left. -/
theorem aluOne_of_done {ir a : Byte} {op : AluOp} {i : RegIx} {u : State} (ha : s.selects a i)
    (hu : alu op i i s = .done u) : aluOne ir op a s = advance ir u := by
  rw [aluOne, withReg_some _ ha, hu, finishAlu]

/-- Step 5 after a register write, when the advance by the opcode's own length fits or wraps. -/
theorem advance_setReg_of_fits {ir : Byte} {n : Nat} (hbit : selfAdvance ir = false) (hlen : operandCount ir + 1 = n)
    (hadv : s.canAdvance n) (i : RegIx) (v : Byte) :
    advance ir (s.setReg i v) = .next ((s.setReg i v).setPc (s.pc + BitVec.ofNat 8 n)) := by
  rw [advance_clear hbit, hlen]
  exact movePc_of_fits hadv

/-- A two-register request that writes `v` leaves `v` in the first register and pc + 3. -/
theorem aluTwo_writes_and_advances {ir a b v : Byte} {op : AluOp} {i j : RegIx} (hbit : selfAdvance ir = false)
    (hcount : operandCount ir = 2) (ha : s.selects a i) (hb : s.selects b j) (hadv : s.canAdvance 3)
    (hu : alu op i j s = .done (s.setReg i v)) :
    aluTwo ir op a b s = .next ((s.setReg i v).setPc (s.pc + 3#8)) := by
  rw [aluTwo_of_done ha hb hu]
  exact advance_setReg_of_fits hbit (by rw [hcount]) hadv i v

/-- A one-register request that writes `v` leaves `v` in the register and pc + 2. -/
theorem aluOne_writes_and_advances {ir a v : Byte} {op : AluOp} {i : RegIx} (hbit : selfAdvance ir = false)
    (hcount : operandCount ir = 1) (ha : s.selects a i) (hadv : s.canAdvance 2)
    (hu : alu op i i s = .done (s.setReg i v)) :
    aluOne ir op a s = .next ((s.setReg i v).setPc (s.pc + 2#8)) := by
  rw [aluOne_of_done ha hu]
  exact advance_setReg_of_fits hbit (by rw [hcount]) hadv i v

/-- Under refuse an operand byte above 7 stops a two-register ALU handler before the request (30_encoding.md R65). -/
theorem aluTwo_refuse {a b : Byte} (ir : Byte) (op : AluOp) (hp : s.cfg.regIndex = .refuse)
    (h : 7 < a.toNat ∨ 7 < b.toNat) : aluTwo ir op a b s = .fault .regIndex :=
  withRegs_refuse _ hp h

/-- Under refuse an operand byte above 7 stops a one-register ALU handler before the request (30_encoding.md R65). -/
theorem aluOne_refuse {a : Byte} (ir : Byte) (op : AluOp) (hp : s.cfg.regIndex = .refuse) (h : 7 < a.toNat) :
    aluOne ir op a s = .fault .regIndex :=
  withReg_refuse _ hp h

/-! ### Dispatch (40_engine_cycle.md R84) -/

theorem exec_mul (a b : Byte) (s : State) : exec (.mul a b) s = aluTwo Op.mul.byte .mul a b s := rfl
theorem exec_sub (a b : Byte) (s : State) : exec (.sub a b) s = aluTwo Op.sub.byte .sub a b s := rfl
theorem exec_inc (a : Byte) (s : State) : exec (.inc a) s = aluOne Op.inc.byte .inc a s := rfl
theorem exec_dec (a : Byte) (s : State) : exec (.dec a) s = aluOne Op.dec.byte .dec a s := rfl

/-! ### The results as the rules write them -/

/-- The exact product's remainder modulo 256 is the byte the ALU stores (R111, R112). -/
theorem mulResult_eq_mod (x y : Byte) : mulResult x y = BitVec.ofNat 8 (x.toNat * y.toNat % 256) := by
  apply BitVec.eq_of_toNat_eq
  simp [mulResult]

/-- The remainder of a negative difference is the difference plus 256 (R114). -/
theorem subResult_eq_ite (x y : Byte) :
    subResult x y =
      BitVec.ofNat 8 (if x.toNat < y.toNat then x.toNat + 256 - y.toNat else x.toNat - y.toNat) := by
  have := x.isLt
  have := y.isLt
  apply BitVec.eq_of_toNat_eq
  rw [subResult_eq, BitVec.toNat_sub, BitVec.toNat_ofNat]
  split <;> omega

/-- The sum with one wraps at 255 only (R116). -/
theorem addResult_one (x : Byte) :
    addResult x 1#8 = if x = 255#8 then 0#8 else BitVec.ofNat 8 (x.toNat + 1) := by
  split
  next h => rw [h]; rfl
  next => rfl

/-- The difference with one wraps at 0 only (R117). -/
theorem subResult_one (x : Byte) :
    subResult x 1#8 = if x = 0#8 then 255#8 else BitVec.ofNat 8 (x.toNat - 1) := by
  split
  next h => rw [h]; rfl
  next h =>
    have hpos : ¬ x.toNat < 1 := fun hlt => h (BitVec.eq_of_toNat_eq (by simpa using hlt))
    rw [subResult_eq_ite]
    exact congrArg (BitVec.ofNat 8) (if_neg hpos)

/-! ### The requests -/

theorem alu_mul (i j : RegIx) (s : State) :
    alu .mul i j s = .done (s.setReg i (BitVec.ofNat 8 ((s.reg i).toNat * (s.reg j).toNat % 256))) := by
  rw [alu, mulResult_eq_mod]

theorem alu_sub (i j : RegIx) (s : State) :
    alu .sub i j s = .done (s.setReg i (BitVec.ofNat 8 (if (s.reg i).toNat < (s.reg j).toNat
      then (s.reg i).toNat + 256 - (s.reg j).toNat else (s.reg i).toNat - (s.reg j).toNat))) := by
  rw [alu, subResult_eq_ite]

theorem alu_inc (i j : RegIx) (s : State) :
    alu .inc i j s = .done (s.setReg i
      (if s.reg i = 255#8 then 0#8 else BitVec.ofNat 8 ((s.reg i).toNat + 1))) := by
  rw [alu, addResult_one]

theorem alu_dec (i j : RegIx) (s : State) :
    alu .dec i j s = .done (s.setReg i
      (if s.reg i = 0#8 then 255#8 else BitVec.ofNat 8 ((s.reg i).toNat - 1))) := by
  rw [alu, subResult_one]

end Sys2Proof.Machine

namespace Sys2Proof.Proofs

open Sys2Proof Sys2Proof.Machine

/-- Settles O19: MUL is a two-register ALU handler whose request writes the product's remainder. -/
theorem mulStoresTheProductModulo256 : Obligations.MulStoresTheProductModulo256 := by
  intro a b s
  rw [exec_mul]
  exact ⟨fun i j ha hb hadv => aluTwo_writes_and_advances selfAdvance_mul operandCount_mul ha hb hadv (alu_mul i j s),
    aluTwo_refuse _ _⟩

/-- Settles O20: SUB is a two-register ALU handler whose request writes the difference's remainder. -/
theorem subStoresTheDifferenceModulo256 : Obligations.SubStoresTheDifferenceModulo256 := by
  intro a b s
  rw [exec_sub]
  exact ⟨fun i j ha hb hadv => aluTwo_writes_and_advances selfAdvance_sub operandCount_sub ha hb hadv (alu_sub i j s),
    aluTwo_refuse _ _⟩

/-- Settles O22: INC is a one-register ALU handler whose request writes the sum with one. -/
theorem incAddsOneModulo256 : Obligations.IncAddsOneModulo256 := by
  intro a s
  rw [exec_inc]
  exact ⟨fun i ha hadv => aluOne_writes_and_advances selfAdvance_inc operandCount_inc ha hadv (alu_inc i i s),
    aluOne_refuse _ _⟩

/-- Settles O23: DEC is a one-register ALU handler whose request writes the difference with one. -/
theorem decSubtractsOneModulo256 : Obligations.DecSubtractsOneModulo256 := by
  intro a s
  rw [exec_dec]
  exact ⟨fun i ha hadv => aluOne_writes_and_advances selfAdvance_dec operandCount_dec ha hadv (alu_dec i i s),
    aluOne_refuse _ _⟩

end Sys2Proof.Proofs
end

section
/-! PROOFS. The comparison CMP (43_compare.md R121). -/

namespace Sys2Proof.Machine

open Sys2Proof

/-- The dispatch of CMP (40_engine_cycle.md R84). -/
theorem exec_cmp (a b : Byte) (s : State) : exec (.cmp a b) s = aluTwo Op.cmp.byte .cmp a b s := rfl

/-- Step 5 on CMP's byte: format F2, bit 4 clear. -/
theorem advance_cmp (s : State) : advance Op.cmp.byte s = movePc 3 s := by
  rw [advance_clear selfAdvance_cmp, operandCount_cmp]

/-- The three flags of a comparison, each the unsigned relation it is named after. -/
theorem compareFlags_eq (x y : Byte) :
    compareFlags x y = { l := decide (x.toNat < y.toNat), g := decide (y.toNat < x.toNat), e := decide (x = y) } := by
  rw [← compareFlags_l, ← compareFlags_g, ← compareFlags_e]

/-- A CMP request writes the flags, each the unsigned relation of x[i] to x[j], and nothing else. -/
theorem alu_cmp (i j : RegIx) (s : State) :
    alu .cmp i j s = .done (s.setFlags
      { l := decide ((s.reg i).toNat < (s.reg j).toNat), g := decide ((s.reg j).toNat < (s.reg i).toNat),
        e := decide (s.reg i = s.reg j) }) := by
  rw [alu, compareFlags_eq]

end Sys2Proof.Machine

namespace Sys2Proof.Proofs

open Sys2Proof Sys2Proof.Machine

/-- Settles O26: CMP is a two-register ALU handler whose request writes the flags; step 5 then advances by 3, and an index refused
stops CMP before the request. -/
theorem cmpSetsTheUnsignedRelation : Obligations.CmpSetsTheUnsignedRelation := by
  refine fun a b s => ⟨?compares, ?badIndex⟩
  case compares =>
    intro i j ha hb hadv
    rw [exec_cmp, aluTwo_of_done ha hb (alu_cmp i j s), advance_cmp]
    exact movePc_of_fits hadv
  case badIndex =>
    rw [exec_cmp]
    exact aluTwo_refuse _ _

end Sys2Proof.Proofs
end

section
/-! PROOFS. The jumps JMP and JNE (45_control_transfer.md R140, R141, R143). -/

namespace Sys2Proof.Machine

open Sys2Proof

variable {a : Byte} {s : State}

/-! ### The taken arm -/

/-- A taken jump sets pc to the selected register's value, whatever it is (R140). -/
theorem jumpTo_of_selects {i : RegIx} (ha : s.selects a i) : jumpTo a s = .next (s.setPc (s.reg i)) :=
  withReg_some _ ha

/-- Under refuse an operand byte above 7 stops a taken jump before pc is set (30_encoding.md R65). -/
theorem jumpTo_refuse (hp : s.cfg.regIndex = .refuse) (h : 7 < a.toNat) : jumpTo a s = .fault .regIndex :=
  withReg_refuse _ hp h

/-! ### Dispatch (40_engine_cycle.md R84) and the arm chosen -/

/-- JMP always takes the jump (R141). -/
theorem exec_jmp (a : Byte) (s : State) : exec (.jmp a) s = jumpTo a s := rfl

/-- The dispatch of JNE. -/
theorem exec_jne (a : Byte) (s : State) : exec (.jne a) s = execJne a s := rfl

/-- JNE with Equal clear takes the jump (R143). -/
theorem execJne_of_clear (he : s.fl.e = false) : execJne a s = jumpTo a s := by
  rw [execJne, he, if_neg Bool.false_ne_true]

/-- JNE with Equal set moves pc by 2 and uses no operand (R143). -/
theorem execJne_of_set (he : s.fl.e = true) : execJne a s = movePc 2 s := by
  rw [execJne, if_pos he, fallThrough]

end Sys2Proof.Machine

namespace Sys2Proof.Proofs

open Sys2Proof Sys2Proof.Machine

/-- Settles O31: JMP is the taken arm alone, at every pc; an index refused stops it. -/
theorem jmpGoesToTheRegister : Obligations.JmpGoesToTheRegister := by
  intro a s
  rw [exec_jmp]
  exact ⟨fun _ => jumpTo_of_selects, jumpTo_refuse⟩

/-- Settles O33: Equal alone chooses between the taken arm, which needs the index, and the advance of 2, which does not. -/
theorem jneJumpsWhenEqualIsClear : Obligations.JneJumpsWhenEqualIsClear := by
  intro a s
  rw [exec_jne]
  refine ⟨?taken, ?notTaken, ?badIndex⟩
  case taken =>
    intro i he ha
    rw [execJne_of_clear he]
    exact jumpTo_of_selects ha
  case notTaken =>
    intro he hadv
    rw [execJne_of_set he]
    exact movePc_of_fits hadv
  case badIndex =>
    intro he hp hk
    rw [execJne_of_clear he]
    exact jumpTo_refuse hp hk

end Sys2Proof.Proofs
end

section
/-! PROOFS. The decoder against the encoder, its two rejections by name, and reg() (30_encoding.md R60 to R69). -/

namespace Sys2Proof

/-! ### The decoder -/

/-- A key selects its row, whatever follows. -/
theorem decode_byte (o : Op) (bytes : List Byte) : decode (o.byte :: bytes) = takeOperands o bytes := by
  rw [decode, decodeOp_byte]

/-- Decoding and encoding are inverse, with the bytes after the instruction left over. -/
theorem decode_ok_iff {bytes rest : List Byte} {i : Instr} :
    decode bytes = .ok (i, rest) ↔ bytes = encode i ++ rest := by
  constructor
  · intro h
    cases bytes with
    | nil => cases h
    | cons ir bytes =>
      cases ho : decodeOp ir with
      | none => rw [decode_unknown ho] at h; cases h
      | some o =>
        obtain rfl := decodeOp_some ho
        rw [decode_byte] at h
        obtain ⟨rfl, rfl⟩ := takeOperands_ok h
        rfl
  · rintro rfl
    exact (decode_byte i.op _).trans (takeOperands_operands i rest)

/-- Format F1 on too few bytes, or on enough. -/
theorem takeOne_cases (build : Byte → Instr) (bytes : List Byte) :
    (bytes.length < 1 ∧ takeOne build bytes = .error .truncated) ∨
      (1 ≤ bytes.length ∧ ∃ p, takeOne build bytes = .ok p) := by
  match bytes with
  | [] => exact .inl ⟨by simp, rfl⟩
  | _ :: _ => exact .inr ⟨by simp, _, rfl⟩

/-- Format F2 on too few bytes, or on enough. -/
theorem takeTwo_cases (build : Byte → Byte → Instr) (bytes : List Byte) :
    (bytes.length < 2 ∧ takeTwo build bytes = .error .truncated) ∨
      (2 ≤ bytes.length ∧ ∃ p, takeTwo build bytes = .ok p) := by
  match bytes with
  | [] => exact .inl ⟨by simp, rfl⟩
  | [_] => exact .inl ⟨by simp, rfl⟩
  | _ :: _ :: _ => exact .inr ⟨by simp, _, rfl⟩

/-- A row's operand bytes are truncated exactly when fewer follow than bits 7:6 of its key declare; nothing else fails. -/
theorem takeOperands_cases (o : Op) (bytes : List Byte) :
    (bytes.length < operandCount o.byte ∧ takeOperands o bytes = .error .truncated) ∨
      (operandCount o.byte ≤ bytes.length ∧ ∃ p, takeOperands o bytes = .ok p) := by
  cases o
  case hlt => exact .inr ⟨by simp, _, rfl⟩
  case ldi | mul | sub | div | cmp => exact takeTwo_cases _ bytes
  all_goals exact takeOne_cases _ bytes

/-- A byte is a key, or it has no row. -/
theorem isKey_or_decodeOp_none (ir : Byte) : (∃ o : Op, o.byte = ir) ∨ decodeOp ir = none := by
  cases h : decodeOp ir with
  | none => exact .inr rfl
  | some o => exact .inl ⟨o, decodeOp_some h⟩

/-- An unknown opcode is reported exactly for a first byte with no row, by that byte (R69). -/
theorem decode_unknownOpcode_iff {ir k : Byte} {bytes : List Byte} :
    decode (ir :: bytes) = .error (.unknownOpcode k) ↔ k = ir ∧ ∀ o : Op, o.byte ≠ ir := by
  obtain ⟨o, rfl⟩ | h := isKey_or_decodeOp_none ir
  · have hkey : ¬ ∀ p : Op, p.byte ≠ o.byte := fun h => h o rfl
    rw [decode_byte]
    obtain ⟨-, ht⟩ | ⟨-, p, ht⟩ := takeOperands_cases o bytes <;> simp [ht, hkey]
  · simp [decode_unknown h, decodeOp_none_iff.mp h, eq_comm]

/-- A truncation is reported exactly for a key with too few bytes after it. -/
theorem decode_truncated_iff {ir : Byte} {bytes : List Byte} :
    decode (ir :: bytes) = .error .truncated ↔ (∃ o : Op, o.byte = ir) ∧ bytes.length < operandCount ir := by
  obtain ⟨o, rfl⟩ | h := isKey_or_decodeOp_none ir
  · rw [decode_byte]
    obtain ⟨hlen, ht⟩ | ⟨hlen, p, ht⟩ := takeOperands_cases o bytes
    · exact ⟨fun _ => ⟨⟨o, rfl⟩, hlen⟩, fun _ => ht⟩
    · simp [ht, Nat.not_lt.mpr hlen]
  · simp [decode_unknown h, decodeOp_none_iff.mp h]

namespace Machine

/-! ### reg() (R65) -/

/-- reg(k) is k itself, or under mask3 the low three bits of k. -/
theorem regOperand_eq_some_iff {p : IndexPolicy} {k : Byte} {i : RegIx} :
    regOperand p k = some i ↔ i.val = k.toNat ∨ (p = .mask3 ∧ i.val = k.toNat % 8) := by
  cases p with
  | mask3 =>
    have hi : i.val < 8 := i.isLt
    simp only [regOperand_mask3, Option.some.injEq, Fin.ext_iff, Fin.val_ofNat, true_and]
    omega
  | refuse =>
    by_cases h : k.toNat < 8
    · simp [regOperand_of_le _ h, Fin.ext_iff, eq_comm]
    · have hi : i.val < 8 := i.isLt
      simp only [regOperand_refuse (show 7 < k.toNat by omega), reduceCtorEq, false_and, or_false, false_iff]
      omega

end Machine

end Sys2Proof

namespace Sys2Proof.Proofs

open Sys2Proof Sys2Proof.Machine

/-- Settles O4: the key found selects the row, and the row's format takes exactly the operands back. -/
theorem decodeAndEncodeAgree : Obligations.DecodeAndEncodeAgree :=
  fun _ _ _ => decode_ok_iff

/-- Settles O5: a byte with no row is rejected by its name, a key only for want of the operand bytes it declares. -/
theorem decodeRejectsByName : Obligations.DecodeRejectsByName := by
  refine ⟨fun ir k rest => decode_unknownOpcode_iff, fun ir rest => ?_⟩
  rw [← operandCount_eq_div]
  exact decode_truncated_iff

/-- Settles O6: under refuse only a byte below 8 selects; under mask3 both readings name the same register. -/
theorem regOperandSelects : Obligations.RegOperandSelects :=
  fun _ _ _ => regOperand_eq_some_iff

/-- Settles O3: the words of R66 decode, and 0xA0 and 0x00 have no row. -/
theorem writtenOutWordsDecode : Obligations.WrittenOutWordsDecode := by
  refine ⟨rfl, rfl, rfl, rfl, rfl, rfl, decode_unknown ?_ _, decode_unknown ?_ _⟩ <;> decide

end Sys2Proof.Proofs
end

section
/-! PROOFS. What every step keeps: frames of the instructions and of the whole machine, and the invariant (10_state.md sections 2 to
6; 20_memory.md section 1). Each is a case analysis over `Effect`, lifted to a step by `StepEffect`. -/

namespace Sys2Proof.Machine

open Sys2Proof

variable {s t : State} {i : Instr}

/-! ### What one instruction leaves as it was -/

namespace Effect

theorem cfg (h : Effect s i t) : t.cfg = s.cfg := by
  cases h <;> rfl

/-- No instruction but CMP writes a flag (10_state.md R28). -/
theorem fl_of_ne_cmp (h : Effect s i t) (hi : i.op ≠ .cmp) : t.fl = s.fl := by
  cases h with
  | cmp => exact absurd rfl hi
  | _ => rfl

/-- After CMP exactly one flag is set. -/
theorem fl_of_cmp (h : Effect s i t) (hi : i.op = .cmp) : t.fl.exactlyOne = true := by
  cases h with
  | cmp => exact compareFlags_exactlyOne ..
  | _ => cases hi

/-- No instruction but PUSH writes memory. -/
theorem mem_of_ne_push (h : Effect s i t) (hi : i.op ≠ .push) : t.mem = s.mem := by
  cases h with
  | push => exact absurd rfl hi
  | _ => rfl

/-- No cell but the one below the stack pointer is written. -/
theorem readByte_of_ne (h : Effect s i t) {k : Byte} (hk : k ≠ s.pushAddr) : t.readByte k = s.readByte k := by
  cases h with
  | push => exact pushReg_readByte _ s hk
  | _ => rfl

theorem mem_wf (h : Effect s i t) (hs : s.mem.wf = true) : t.mem.wf = true := by
  cases h with
  | push => exact State.writeByte_wf (s := s.setReg spIx s.pushAddr) hs ..
  | _ => exact hs

theorem out_of_ne_prn (h : Effect s i t) (hi : i.op ≠ .prn) : t.out = s.out := by
  cases h with
  | prn => exact absurd rfl hi
  | _ => rfl

theorem run_of_ne (h : Effect s i t) (hhlt : i.op ≠ .hlt) (hdiv : i.op ≠ .div) : t.run = s.run := by
  cases h with
  | hlt => exact absurd rfl hhlt
  | divZero => exact absurd rfl hdiv
  | _ => rfl

/-- The run state changes only by HLT and by a division by zero, which changes nothing else. -/
theorem run_cases (h : Effect s i t) :
    t.run = s.run ∨ (i = .hlt ∧ t.run = .halted) ∨
      ∃ a b j, i = .div a b ∧ s.selects b j ∧ s.reg j = 0#8 ∧ t = s.abort .divideByZero := by
  cases h with
  | hlt => exact .inr (.inl ⟨rfl, rfl⟩)
  | divZero hb hz => exact .inr (.inr ⟨_, _, _, rfl, hb, hz, rfl⟩)
  | _ => exact .inl rfl

/-- LDI and the ALU's arithmetic write x[a] and pc, except where a division aborts. -/
theorem writer {a b : Byte} (h : Effect s i t)
    (hi : i = .ldi a b ∨ i = .mul a b ∨ i = .sub a b ∨ i = .div a b ∨ i = .inc a ∨ i = .dec a) :
    (∃ d v p, s.selects a d ∧ t = (s.setReg d v).setPc p) ∨ (i = .div a b ∧ t = s.abort .divideByZero) := by
  rcases hi with rfl | rfl | rfl | rfl | rfl | rfl
  case inr.inr.inr.inl =>
    cases h with
    | div p v ha => exact .inl ⟨_, v, p, ha, rfl⟩
    | divZero => exact .inr ⟨rfl, rfl⟩
  all_goals
    cases h
    exact .inl ⟨_, _, _, ‹_›, rfl⟩

/-- HLT, PRN, CMP and the jumps write no register. -/
theorem x_of_reader {a b : Byte} (h : Effect s i t)
    (hi : i = .hlt ∨ i = .prn a ∨ i = .cmp a b ∨ i = .jmp a ∨ i = .jeq a ∨ i = .jne a) : t.x = s.x := by
  rcases hi with rfl | rfl | rfl | rfl | rfl | rfl <;> cases h <;> rfl

end Effect

/-! ### Everything a step can do -/

/-- `StepEffect s t`: a step may take `s` to `t`. -/
inductive StepEffect (s : State) : State → Prop where
  | start (hr : s.run = .waiting) : StepEffect s s.start
  | idle (hr : s.run ≠ .running) : StepEffect s s
  | instr {i : Instr} {rest : List Byte} {t : State} (hr : s.run = .running) (hd : s.fetched = encode i ++ rest)
      (he : Effect s i t) : StepEffect s t
  | unknown (p : Byte) (hr : s.run = .running) (hu : decodeOp (s.readByte s.pc) = none) : StepEffect s (s.setPc p)
  | add (d : RegIx) (v p : Byte) (hr : s.run = .running) (hu : decodeOp (s.readByte s.pc) = none) :
      StepEffect s ((s.setReg d v).setPc p)

theorem step_effect (h : step s = .next t) : StepEffect s t := by
  by_cases hr : s.run = .running
  · obtain ⟨i, rest, hd, -, he⟩ | ⟨hu, he⟩ := step_running_next hr h
    · exact .instr hr (decode_ok_iff.mp hd) (exec_effect he)
    · obtain ⟨p, rfl⟩ | ⟨-, -, d, v, p, -, rfl⟩ := execUnlisted_next he
      · exact .unknown p hr hu
      · exact .add d v p hr hu
  · rw [step_not_running hr, Host.Outcome.next.injEq] at h
    subst h
    split
    · exact .start ‹_›
    · exact .idle hr

/-- The opcode byte at pc is the key of the instruction fetched, and of no other row. -/
theorem readByte_pc_eq_byte_iff {rest : List Byte} (hd : s.fetched = encode i ++ rest) (o : Op) :
    s.readByte s.pc = o.byte ↔ i.op = o := by
  have hhead : s.readByte s.pc = i.op.byte := List.head_eq_of_cons_eq hd
  rw [hhead]
  exact ⟨Op.byte_injective, congrArg Op.byte⟩

namespace StepEffect

theorem cfg (h : StepEffect s t) : t.cfg = s.cfg := by
  cases h with
  | instr _ _ he => exact he.cfg
  | _ => rfl

/-- The flags are written by a CMP executed, which leaves exactly one set, and by nothing else. -/
theorem fl_cases (h : StepEffect s t) :
    (s.run = .running ∧ s.readByte s.pc = Op.cmp.byte ∧ t.fl.exactlyOne = true) ∨
      (¬ (s.run = .running ∧ s.readByte s.pc = Op.cmp.byte) ∧ t.fl = s.fl) := by
  cases h with
  | start hr => exact .inr ⟨by simp [hr], rfl⟩
  | idle hr => exact .inr ⟨by simp [hr], rfl⟩
  | unknown p hr hu => exact .inr ⟨fun hc => decodeOp_none_iff.mp hu .cmp hc.2.symm, rfl⟩
  | add d v p hr hu => exact .inr ⟨fun hc => decodeOp_none_iff.mp hu .cmp hc.2.symm, rfl⟩
  | @instr i _ _ hr hd he =>
    by_cases hc : i.op = .cmp
    · exact .inl ⟨hr, (readByte_pc_eq_byte_iff hd .cmp).mpr hc, he.fl_of_cmp hc⟩
    · exact .inr ⟨fun h => hc ((readByte_pc_eq_byte_iff hd .cmp).mp h.2), he.fl_of_ne_cmp hc⟩

theorem mem_of_ne_push (h : StepEffect s t) (hb : s.readByte s.pc ≠ Op.push.byte) : t.mem = s.mem := by
  cases h with
  | instr hr hd he => exact he.mem_of_ne_push (fun hp => hb ((readByte_pc_eq_byte_iff hd .push).mpr hp))
  | _ => rfl

theorem readByte_of_ne (h : StepEffect s t) {k : Byte} (hk : k ≠ s.pushAddr) : t.readByte k = s.readByte k := by
  cases h with
  | instr _ _ he => exact he.readByte_of_ne hk
  | _ => rfl

theorem mem_wf (h : StepEffect s t) (hs : s.mem.wf = true) : t.mem.wf = true := by
  cases h with
  | instr _ _ he => exact he.mem_wf hs
  | _ => exact hs

/-- The run state after a step: as before, started, halted by HLT, or aborted by a DIV with a zero divisor. -/
theorem run_cases (h : StepEffect s t) :
    t.run = s.run ∨ t.run = .running ∨ (t.run = .halted ∧ s.readByte s.pc = Op.hlt.byte) ∨
      (t = s.abort .divideByZero ∧ s.readByte s.pc = Op.div.byte ∧
        ∃ j, s.selects (s.readByte (s.pc + 2#8)) j ∧ s.reg j = 0#8) := by
  cases h with
  | start => exact .inr (.inl rfl)
  | instr hr hd he =>
    obtain hrun | ⟨rfl, hrun⟩ | ⟨a, b, j, rfl, hb, hz, rfl⟩ := he.run_cases
    · exact .inl hrun
    · exact .inr (.inr (.inl ⟨hrun, (readByte_pc_eq_byte_iff hd .hlt).mpr rfl⟩))
    · have hopb : s.readByte (s.pc + 2#8) = b := by
        simp only [State.fetched, encode, Instr.operands, List.cons_append, List.cons.injEq] at hd
        exact hd.2.2.1
      exact .inr (.inr (.inr ⟨rfl, (readByte_pc_eq_byte_iff hd .div).mpr rfl, j, hopb ▸ hb, hz⟩))
  | _ => exact .inl rfl

/-- The output stream is as before, or a PRN executed and appended the register its operand selects. -/
theorem out_cases (h : StepEffect s t) :
    t.out = s.out ∨ (s.run = .running ∧ s.readByte s.pc = Op.prn.byte ∧
      ∃ d, s.selects (s.readByte (s.pc + 1#8)) d ∧ t.out = s.out ++ [s.reg d]) := by
  cases h with
  | @instr i _ _ hr hd he =>
    by_cases hp : i.op = .prn
    · cases he with
      | prn p ha =>
        have hopa : s.readByte (s.pc + 1#8) = _ := (List.cons.inj (List.cons.inj hd).2).1
        exact .inr ⟨hr, (readByte_pc_eq_byte_iff hd .prn).mpr hp, _, hopa ▸ ha, rfl⟩
      | _ => cases hp
    · exact .inl (he.out_of_ne_prn hp)
  | _ => exact .inl rfl

/-- Every part of the invariant is kept. -/
theorem inv (h : StepEffect s t) (hs : s.Inv) : t.Inv where
  memory := h.mem_wf hs.memory
  flags := by
    obtain ⟨-, -, h1⟩ | ⟨-, h1⟩ := h.fl_cases
    · exact .inr h1
    · exact h1 ▸ hs.flags
  cause := by
    obtain h1 | h1 | ⟨h1, -⟩ | ⟨rfl, -⟩ := h.run_cases
    · exact h1 ▸ hs.cause
    · simp [h1]
    · simp [h1]
    · simp

end StepEffect

end Sys2Proof.Machine

namespace Sys2Proof.Proofs

open Sys2Proof Sys2Proof.Machine

/-- Settles O49: each part of the invariant over everything a step can do. -/
theorem everyStepKeepsInvariant : Obligations.EveryStepKeepsInvariant :=
  fun _ _ hs h => (step_effect h).inv hs

/-- Settles O2: after reset memory lists nothing, no flag is set and the machine waits. -/
theorem resetMeetsInvariant : Obligations.ResetMeetsInvariant where
  memory := State.reset_mem_wf
  flags := .inl rfl
  cause := nofun

/-- Settles O1: the register file by its law, every other field as reset writes it. -/
theorem resetLeavesTheTableOfResetValues : Obligations.ResetLeavesTheTableOfResetValues := by
  refine ⟨fun i hi => ?_, State.reset_reg 7, rfl, rfl, rfl, rfl, fun _ => rfl, rfl, rfl⟩
  rw [State.reset_reg, if_neg]
  rintro rfl
  exact absurd hi (by decide)

/-- Settles O48: no effect writes the configuration. -/
theorem stepKeepsTheConfiguration : Obligations.StepKeepsTheConfiguration :=
  fun _ _ h => (step_effect h).cfg

/-- Settles O39: of all effects CMP's alone writes the flags, with the result of a comparison. -/
theorem onlyCompareWritesFlags : Obligations.OnlyCompareWritesFlags := by
  intro s t h
  obtain ⟨-, hb, h1⟩ | ⟨hn, h1⟩ := (step_effect h).fl_cases
  · exact ⟨fun hne => absurd hb hne, fun _ _ => h1⟩
  · exact ⟨fun _ => h1, fun hr hb => absurd ⟨hr, hb⟩ hn⟩

/-- Settles O41: of all effects PUSH's alone writes memory, at the decremented stack pointer. -/
theorem onlyPushWritesMemory : Obligations.OnlyPushWritesMemory :=
  fun _ _ h => ⟨(step_effect h).mem_of_ne_push, fun _ => (step_effect h).readByte_of_ne⟩

/-- Settles O42: of all effects PRN's alone writes the output stream. -/
theorem outputIsOnlyAppendedByPrn : Obligations.OutputIsOnlyAppendedByPrn :=
  fun _ _ h => (step_effect h).out_cases

/-- Settles O43: of a Running state's effects HLT's and the aborting DIV's alone write the run state. -/
theorem onlyHltOrDivideByZeroEndsARun : Obligations.OnlyHltOrDivideByZeroEndsARun := by
  intro s t hr h
  obtain h1 | h1 := (step_effect h).run_cases
  · exact .inl (h1.trans hr)
  · exact h1

/-- Settles O36: the form of a register writer's effect, and of DIV's abort, says all of the frame. -/
theorem registerWritersFrame : Obligations.RegisterWritersFrame := by
  intro a b d i s t hi ha h
  obtain ⟨d', v, p, ha', rfl⟩ | ⟨hdiv, rfl⟩ := (exec_effect h).writer hi
  · obtain rfl : d' = d := Option.some.inj (ha'.symm.trans ha)
    exact ⟨fun k hk => State.reg_setReg_other s v hk, rfl, rfl, rfl, fun _ => rfl, .inl rfl⟩
  · exact ⟨fun _ _ => rfl, rfl, rfl, rfl, fun _ => rfl, .inr ⟨hdiv, rfl, rfl⟩⟩

/-- Settles O37: none of the six writes a register or memory; flags, output and run each have one writer among them. -/
theorem registerReadersFrame : Obligations.RegisterReadersFrame := by
  intro a b i s t hi h
  have he := exec_effect h
  have hop : (i.op = .cmp → i = .cmp a b) ∧ (i.op = .prn → i = .prn a) ∧ (i.op = .hlt → i = .hlt) ∧
      i.op ≠ .push ∧ i.op ≠ .div := by
    rcases hi with rfl | rfl | rfl | rfl | rfl | rfl <;> simp [Instr.op]
  obtain ⟨hcmp, hprn, hhlt, hpush, hdiv⟩ := hop
  have hx := he.x_of_reader hi
  have hmem := he.mem_of_ne_push hpush
  exact ⟨fun k => by simp [State.reg, hx], he.cfg, fun k => by simp [State.readByte, hmem],
    fun hne => he.fl_of_ne_cmp (mt hcmp hne), fun hne => he.out_of_ne_prn (mt hprn hne),
    fun hne => he.run_of_ne (mt hhlt hne) hdiv⟩

/-- Settles O38: the effects of PUSH and POP on registers and cells. -/
theorem stackFrame : Obligations.StackFrame := by
  refine fun a d s t ha => ⟨fun h => ?push, fun h => ?pop⟩
  case push =>
    cases exec_effect h with
    | @push _ j p ha' => exact ⟨fun k => pushReg_reg j k s, rfl, rfl, rfl, rfl, fun k => pushReg_readByte j s⟩
  case pop =>
    cases exec_effect h with
    | @pop _ j p ha' =>
      rw [show d = j from Option.some.inj (ha.symm.trans ha')]
      exact ⟨fun k => popReg_reg j k s, rfl, rfl, rfl, rfl, popReg_readByte j s⟩

end Sys2Proof.Proofs
end

section
/-! PROOFS. The cycle (40_engine_cycle.md sections 1, 2 and 4): the fetched instruction, operand reads past the top, unknown opcodes,
and the states whose step changes nothing. -/

namespace Sys2Proof.Machine

open Sys2Proof

variable {s : State}

/-! ### A cycle that fetches an instruction -/

/-- A cycle that can fetch runs the instruction fetched. -/
theorem step_of_fetched {i : Instr} {rest : List Byte} (hf : s.canFetch) (hd : decode s.fetched = .ok (i, rest)) :
    step s = exec i s := by
  obtain ⟨hr, hfits⟩ := hf
  rw [step_of_running hr, cycle_of_fits hfits]
  exact dispatch_ok hd

/-- Operand reads past address 255 stop the cycle under refuse, whatever the bytes are (R82). -/
theorem step_of_fetch_overrun (hr : s.run = .running) (hp : s.cfg.addrOverrun = .refuse) (h : 254 ≤ s.pc.toNat) :
    step s = .fault .addrOverrun := by
  rw [step_of_running hr, cycle, if_pos]
  exact ⟨decide_eq_true (by omega), hp⟩

/-- The three addresses a cycle fetches from are distinct, so a placed table word is what the cycle fetches. -/
theorem fetched_withFetchWord (hm : s.mem.wf = true) (nbits w : Nat) :
    (s.withFetchWord nbits w).fetched = tableBytes nbits w := by
  have h01 : s.pc ≠ s.pc + 1#8 := by simp
  have h02 : s.pc ≠ s.pc + 2#8 := by simp
  have h12 : s.pc + 1#8 ≠ s.pc + 2#8 := by simp
  have hm0 := State.writeByte_wf hm s.pc (tableByte nbits w 0)
  have hm1 := State.writeByte_wf hm0 (s.pc + 1#8) (tableByte nbits w 1)
  simp only [State.fetched, State.withFetchWord, placeTableWord, State.start_readByte, State.start_pc, State.writeByte_pc]
  rw [State.readByte_writeByte_other _ _ h02, State.readByte_writeByte_other _ _ h01, State.readByte_writeByte_same hm,
    State.readByte_writeByte_other _ _ h12, State.readByte_writeByte_same hm0, State.readByte_writeByte_same hm1]
  rfl

/-- A table word decodes when its three bytes do. -/
theorem decodeTableWord_eq_some {nbits w : Nat} {i : Instr} (h : decodeTableWord nbits w = some i) :
    ∃ rest, decode (tableBytes nbits w) = .ok (i, rest) := by
  unfold decodeTableWord at h
  split at h
  next j rest hd =>
    obtain rfl := Option.some.inj h
    exact ⟨rest, hd⟩
  next => cases h

/-! ### A cycle on an unknown opcode (R87) -/

/-- An unknown opcode does step 5 only. -/
theorem step_of_unknownByte (hf : s.canFetch) (hu : s.unknownByte (s.readByte s.pc)) :
    step s = advance (s.readByte s.pc) s := by
  obtain ⟨hrow, hadd⟩ := hu
  rw [step_of_unlisted hf (decodeOp_none_iff.mpr hrow), execUnlisted, if_neg hadd, execUnknown]

theorem selfAdvance_of_bit_set {ir : Byte} (h : ir.toNat / 16 % 2 = 1) : selfAdvance ir = true := by
  rw [selfAdvance_eq_bit, h]; rfl

theorem selfAdvance_of_bit_clear {ir : Byte} (h : ir.toNat / 16 % 2 = 0) : selfAdvance ir = false := by
  rw [selfAdvance_eq_bit, h]; rfl

/-- With bit 4 set an unknown opcode changes nothing. -/
theorem step_of_unknownByte_set (hf : s.canFetch) (hu : s.unknownByte (s.readByte s.pc))
    (hbit : (s.readByte s.pc).toNat / 16 % 2 = 1) : step s = .next s := by
  rw [step_of_unknownByte hf hu, advance_set (selfAdvance_of_bit_set hbit)]

/-- With bit 4 clear it moves pc by the decoded count plus one. -/
theorem step_of_unknownByte_clear (hf : s.canFetch) (hu : s.unknownByte (s.readByte s.pc))
    (hbit : (s.readByte s.pc).toNat / 16 % 2 = 0) : step s = movePc ((s.readByte s.pc).toNat / 64 + 1) s := by
  rw [step_of_unknownByte hf hu, advance_clear (selfAdvance_of_bit_clear hbit), operandCount_eq_div]

/-! ### Runs -/

/-- A run goes on from where its first step leads. -/
theorem core_run_succ {M : Host.Core} {p q : M.State} (h : M.step p = .next q) (n : Nat) : M.run (n + 1) p = M.run n q := by
  rw [Host.Core.run, h]

/-- A state that a step leaves as it is stays so for any number of steps. -/
theorem core_run_of_step_self (h : step s = .next s) (n : Nat) : Host.Core.run Sys2Proof.core n s = .next s := by
  induction n with
  | zero => rfl
  | succ n ih => exact (core_run_succ (M := Sys2Proof.core) h n).trans ih

end Sys2Proof.Machine

namespace Sys2Proof.Proofs

open Sys2Proof Sys2Proof.Machine

/-- Settles O7: past the guard of step 2 the cycle is its dispatch. -/
theorem stepRunsTheDecodedInstruction : Obligations.StepRunsTheDecodedInstruction :=
  fun _ _ _ => step_of_fetched

/-- Settles O8: the three stores land where the next cycle fetches, and the start makes that cycle run. -/
theorem placedTableWordIsRunNext : Obligations.PlacedTableWordIsRunNext := by
  intro nbits w i s hm hfits h
  obtain ⟨rest, hd⟩ := decodeTableWord_eq_some h
  rw [← fetched_withFetchWord hm] at hd
  exact ⟨step_of_fetched ⟨rfl, hfits⟩ hd, rfl, rfl, rfl, rfl, rfl⟩

/-- Settles O9: step 5 alone, on the byte's own bits 4 and 7:6. -/
theorem unknownOpcodeIsANoOp : Obligations.UnknownOpcodeIsANoOp := by
  refine fun s hf hu => ⟨step_of_unknownByte_set hf hu, fun hbit hadv => ?_, fun hbit hadv => ?_⟩
  · rw [step_of_unknownByte_clear hf hu hbit]
    exact movePc_of_fits hadv
  · rw [step_of_unknownByte_clear hf hu hbit]
    exact movePc_of_overruns hadv

/-- Settles O10: the step of such a state is a fixed point. -/
theorem unknownOpcodeWithBitFourLivelocks : Obligations.UnknownOpcodeWithBitFourLivelocks :=
  fun _ n hf hu hbit => core_run_of_step_self (step_of_unknownByte_set hf hu hbit) n

/-- Settles O11: the guard of step 2 stands before everything under refuse and never under wrap. -/
theorem operandReadsOverrunAtTheTop : Obligations.OperandReadsOverrunAtTheTop :=
  fun _ hr => ⟨step_of_fetch_overrun hr, fun hw _ _ hd => step_of_fetched ⟨hr, .inr hw⟩ hd⟩

/-- Settles O14: the step of a stopped machine is a fixed point. -/
theorem haltedAndAbortedAreTerminal : Obligations.HaltedAndAbortedAreTerminal := by
  rintro s n (hr | ⟨c, hr⟩)
  all_goals
    apply core_run_of_step_self
    rw [step_not_running (by simp [hr]), if_neg (by simp [hr])]

/-- Settles O15: the waiting arm of the step is the start, and the host has that move while the machine waits. -/
theorem waitingStepIsTheStart : Obligations.WaitingStepIsTheStart := by
  intro s hr
  refine ⟨?_, if_pos hr⟩
  rw [step_not_running (by simp [hr]), if_pos hr]
  rfl

end Sys2Proof.Proofs
end

section
/-! PROOFS. HLT, PRN, DIV, PUSH, POP and JEQ one by one, and pairs of instructions run one after the other
(41_system_and_immediate.md; 42_alu_arithmetic.md R115; 44_stack.md; 45_control_transfer.md R142). -/

namespace Sys2Proof.Machine

open Sys2Proof

variable {s t : State} {a b : Byte} {i j : RegIx}

/-! ### Each instruction on selected registers: its effect, then the advance -/

theorem exec_hlt (s : State) : exec .hlt s = movePc 1 s.halt :=
  (advance_clear selfAdvance_hlt s.halt).trans (by rw [operandCount_hlt])

theorem exec_prn (a : Byte) (s : State) : exec (.prn a) s = execPrn a s := rfl
theorem exec_div (a b : Byte) (s : State) : exec (.div a b) s = aluTwo Op.div.byte .div a b s := rfl
theorem exec_push (a : Byte) (s : State) : exec (.push a) s = execPush a s := rfl
theorem exec_pop (a : Byte) (s : State) : exec (.pop a) s = execPop a s := rfl
theorem exec_jeq (a : Byte) (s : State) : exec (.jeq a) s = execJeq a s := rfl

theorem exec_ldi_of_selects (v : Byte) (ha : s.selects a i) : exec (.ldi a v) s = movePc 3 (s.setReg i v) := by
  rw [exec_ldi, execLdi_of_selects v ha]

theorem exec_prn_of_selects (ha : s.selects a i) : exec (.prn a) s = movePc 2 (s.emit (s.reg i)) := by
  rw [exec_prn, execPrn, withReg_some _ ha, advance_clear selfAdvance_prn, operandCount_prn]

theorem exec_push_of_selects (ha : s.selects a i) : exec (.push a) s = movePc 2 (pushReg i s) := by
  rw [exec_push, execPush, withReg_some _ ha, advance_clear selfAdvance_push, operandCount_push]

theorem exec_pop_of_selects (ha : s.selects a i) : exec (.pop a) s = movePc 2 (popReg i s) := by
  rw [exec_pop, execPop, withReg_some _ ha, advance_clear selfAdvance_pop, operandCount_pop]

theorem exec_cmp_of_selects (ha : s.selects a i) (hb : s.selects b j) :
    exec (.cmp a b) s = movePc 3 (s.setFlags (compareFlags (s.reg i) (s.reg j))) := by
  rw [exec_cmp, aluTwo_of_done ha hb (by rw [alu]), advance_cmp]

/-- A DIV request with a non-zero divisor writes the floor of the quotient (R115). -/
theorem alu_div_of_ne_zero (i : RegIx) (hz : s.reg j ≠ 0#8) :
    alu .div i j s = .done (s.setReg i (divResult (s.reg i) (s.reg j))) :=
  if_neg hz

theorem exec_div_of_ne_zero (ha : s.selects a i) (hb : s.selects b j) (hz : s.reg j ≠ 0#8) :
    exec (.div a b) s = movePc 3 (s.setReg i (divResult (s.reg i) (s.reg j))) := by
  rw [exec_div, aluTwo_of_done ha hb (alu_div_of_ne_zero i hz), advance_clear selfAdvance_div, operandCount_div]

/-- A DIV with a zero divisor takes the abort, and step 5 is not reached (60_exceptions.md R156). -/
theorem exec_div_of_zero (ha : s.selects a i) (hb : s.selects b j) (hz : s.reg j = 0#8) :
    exec (.div a b) s = .next (s.abort .divideByZero) := by
  have hraise : alu .div i j s = .raise .divideByZero := if_pos hz
  rw [exec_div, aluTwo, withRegs_some _ ha hb, hraise, finishAlu]

/-- JEQ with Equal set takes the jump (R142). -/
theorem exec_jeq_of_set (he : s.fl.e = true) : exec (.jeq a) s = jumpTo a s := by
  rw [exec_jeq, execJeq, if_pos he]

/-- JEQ with Equal clear moves pc by 2 and uses no operand (R142). -/
theorem exec_jeq_of_clear (he : s.fl.e = false) : exec (.jeq a) s = movePc 2 s := by
  rw [exec_jeq, execJeq, he, if_neg Bool.false_ne_true, fallThrough]

/-- Both arms of JEQ, for an operand that selects a register. -/
theorem exec_jeq_of_selects (ha : s.selects a i) (hadv : s.canAdvance 2) :
    exec (.jeq a) s = .next (s.setPc (if s.fl.e = true then s.reg i else s.pc + 2#8)) := by
  by_cases he : s.fl.e = true
  · rw [if_pos he, exec_jeq_of_set he, jumpTo_of_selects ha]
  · rw [if_neg he, exec_jeq_of_clear (by simpa using he)]
    exact movePc_of_fits hadv

/-- Both arms of JNE, for an operand that selects a register. -/
theorem exec_jne_of_selects (ha : s.selects a i) (hadv : s.canAdvance 2) :
    exec (.jne a) s = .next (s.setPc (if s.fl.e = true then s.pc + 2#8 else s.reg i)) := by
  by_cases he : s.fl.e = true
  · rw [if_pos he, exec_jne, execJne_of_set he]
    exact movePc_of_fits hadv
  · rw [if_neg he, exec_jne, execJne_of_clear (by simpa using he), jumpTo_of_selects ha]

/-! ### The stack -/

@[simp] theorem pushReg_sp (i : RegIx) (s : State) : (pushReg i s).sp = s.pushAddr :=
  State.reg_setReg_same ..

/-- What PUSH stores, read after the decrement (R131). -/
theorem pushReg_eq (i : RegIx) (s : State) :
    pushReg i s = (s.setReg spIx s.pushAddr).writeByte s.pushAddr (if i = spIx then s.pushAddr else s.reg i) := by
  have hsp : (s.setReg spIx s.pushAddr).sp = s.pushAddr := State.reg_setReg_same ..
  simp only [pushReg, hsp, State.reg_setReg, eq_comm (a := spIx)]

/-- In a canonical memory the pushed byte is read back. -/
theorem pushReg_readByte_pushAddr (hm : s.mem.wf = true) (i : RegIx) :
    (pushReg i s).readByte s.pushAddr = if i = spIx then s.pushAddr else s.reg i := by
  rw [pushReg_eq]
  exact State.readByte_writeByte_same (s := s.setReg spIx s.pushAddr) hm ..

/-- POP of another register than the stack pointer: the load, and the pointer as it was plus one (R132). -/
theorem popReg_of_ne (h : i ≠ spIx) (s : State) :
    popReg i s = (s.setReg i (s.readByte s.sp)).setReg spIx (s.sp + 1#8) := by
  simp only [popReg, State.popAddr, afterPop_eq, State.reg_setReg_other _ _ h.symm, State.sp_eq]

/-- POP of the stack pointer: the loaded byte plus one (R132). -/
theorem popReg_spIx (s : State) : popReg spIx s = s.setReg spIx (s.readByte s.sp + 1#8) := by
  simp only [popReg, State.popAddr, afterPop_eq, State.reg_setReg_same, State.setReg_setReg_same]

/-- POP undoes what PUSH did to the registers, register 7 as operand included. -/
theorem popReg_reg_after_push (hm : s.mem.wf = true) (i : RegIx) (ht : t.mem = (pushReg i s).mem)
    (hx : t.x = (pushReg i s).x) (k : RegIx) : (popReg i t).reg k = s.reg k := by
  have hreg (k : RegIx) : t.reg k = (pushReg i s).reg k := by simp only [State.reg, hx]
  have hsp : t.sp = s.pushAddr := (hreg spIx).trans (pushReg_sp i s)
  have hload : t.readByte t.sp = if i = spIx then s.pushAddr else s.reg i := by
    rw [hsp, ← pushReg_readByte_pushAddr hm, State.readByte, State.readByte, ht]
  have hback : s.pushAddr + 1#8 = s.reg spIx := by simp [pushAddr_eq]
  by_cases hk : k = spIx
  · subst hk
    by_cases hi : i = spIx
    · subst hi
      rw [popReg_spIx, State.reg_setReg_same, hload, if_pos rfl, hback]
    · rw [popReg_of_ne hi, State.reg_setReg_same, hsp, hback]
  · by_cases hki : k = i
    · subst hki
      rw [popReg_of_ne hk, State.reg_setReg_other _ _ hk, State.reg_setReg_same, hload, if_neg hk]
    · rw [popReg_reg i k t hk hki, hreg, pushReg_reg i k s hk]

/-! ### Two advances, one after the other -/

/-- An advance of m + n that fits or wraps leaves room for m, and then for n. -/
theorem canAdvance_add {m n : Nat} (h : s.canAdvance (m + n)) (hpc : t.pc = s.pc + BitVec.ofNat 8 m)
    (hcfg : t.cfg = s.cfg) : s.canAdvance m ∧ t.canAdvance n := by
  rw [State.canAdvance, State.canAdvance, hcfg]
  rcases h with h | h
  · have hsum : t.pc.toNat = s.pc.toNat + m := by
      rw [hpc, BitVec.toNat_add, BitVec.toNat_ofNat]
      omega
    exact ⟨.inl (by omega), .inl (by omega)⟩
  · exact ⟨.inr h, .inr h⟩

end Sys2Proof.Machine

namespace Sys2Proof.Proofs

open Sys2Proof Sys2Proof.Machine

/-- Settles O16: HLT's advance of 1 follows the halt. -/
theorem hltHaltsAndAdvances : Obligations.HltHaltsAndAdvances := by
  intro s hadv
  rw [exec_hlt]
  exact movePc_of_fits hadv

/-- Settles O18: PRN emits the selected register, then advances by 2; an index refused stops it. -/
theorem prnAppendsTheRegister : Obligations.PrnAppendsTheRegister := by
  refine fun a s => ⟨fun i ha hadv => ?_, withReg_refuse _⟩
  rw [exec_prn_of_selects ha]
  exact movePc_of_fits hadv

/-- Settles O21: the divisor decides between the quotient with an advance of 3 and the abort; an index refused stops both. -/
theorem divStoresTheQuotientOrAborts : Obligations.DivStoresTheQuotientOrAborts := by
  refine fun a b s => ⟨fun i j ha hb hz hadv => ?_, fun i j => exec_div_of_zero, aluTwo_refuse _ _⟩
  rw [exec_div_of_ne_zero ha hb hz]
  exact movePc_of_fits hadv

/-- Settles O25: the ALU's two raising arms, and the abort a handler takes on them. -/
theorem aluErrorsAbortPrecisely : Obligations.AluErrorsAbortPrecisely := by
  refine fun ir op i j s => ⟨fun c => ⟨alu_raise, ?raises⟩, fun c h => ?aborts⟩
  case raises =>
    rintro (⟨rfl, hz, rfl⟩ | ⟨rfl, rfl⟩)
    · exact if_pos hz
    · rfl
  case aborts =>
    rw [h]
    rfl

/-- Settles O27: PUSH's two actions in order, then an advance of 2; an index refused stops it. -/
theorem pushDecrementsThenStores : Obligations.PushDecrementsThenStores := by
  refine fun a s => ⟨fun i ha hadv => ?_, withReg_refuse _⟩
  rw [exec_push_of_selects ha, pushReg_eq, pushAddr_eq]
  exact movePc_of_fits hadv

/-- Settles O28: PUSH stores at the decremented pointer, and a store in a canonical memory is read back. -/
theorem pushedByteIsReadBack : Obligations.PushedByteIsReadBack := by
  intro a i s t hm ha h
  have hwf := (exec_effect h).mem_wf hm
  rw [exec_push_of_selects ha] at h
  obtain rfl := movePc_next h
  exact ⟨pushReg_readByte_pushAddr hm i, pushReg_sp i s, fun k => pushReg_readByte i s, hwf⟩

/-- Settles O29: POP's two actions in order, then an advance of 2; an index refused stops it. -/
theorem popLoadsThenIncrements : Obligations.PopLoadsThenIncrements := by
  refine fun a s => ⟨fun i ha hadv => ?_, withReg_refuse _⟩
  rw [exec_pop_of_selects ha]
  by_cases hi : i = 7
  · subst hi
    rw [if_pos rfl, show popReg 7 s = _ from popReg_spIx s]
    exact movePc_of_fits hadv
  · rw [if_neg hi, popReg_of_ne hi]
    exact movePc_of_fits hadv

/-- Settles O32: Equal alone chooses between the taken arm, which needs the index, and the advance of 2, which does not. -/
theorem jeqJumpsWhenEqualIsSet : Obligations.JeqJumpsWhenEqualIsSet := by
  refine fun a s => ⟨fun i he ha => ?taken, fun he hadv => ?notTaken, fun he hp hk => ?badIndex⟩
  case taken =>
    rw [exec_jeq_of_set he]
    exact jumpTo_of_selects ha
  case notTaken =>
    rw [exec_jeq_of_clear he]
    exact movePc_of_fits hadv
  case badIndex =>
    rw [exec_jeq_of_set he]
    exact jumpTo_refuse hp hk

/-- Settles O30: POP loads from the cell PUSH has just stored to, and increments what PUSH decremented. -/
theorem pushThenPopRestoresRegisters : Obligations.PushThenPopRestoresRegisters := by
  intro a i s hm ha hadv
  obtain ⟨t, ht⟩ : ∃ t, t = (pushReg i s).setPc (s.pc + 2#8) := ⟨_, rfl⟩
  have hpc : t.pc = s.pc + 2#8 := ht ▸ rfl
  have hcfg : t.cfg = s.cfg := ht ▸ rfl
  obtain ⟨hadv1, hadv2⟩ := canAdvance_add (m := 2) (n := 2) hadv hpc hcfg
  have hat : t.selects a i := ht ▸ ha
  refine ⟨t, (popReg i t).setPc (t.pc + 2#8), ?push, ?pop, fun k => ?reg, ht ▸ rfl, ht ▸ rfl, ht ▸ rfl, ?pc, ?cells⟩
  case push => rw [exec_push_of_selects ha, ht]; exact movePc_of_fits hadv1
  case pop => rw [exec_pop_of_selects hat]; exact movePc_of_fits hadv2
  case reg => exact popReg_reg_after_push hm i (ht ▸ rfl) (ht ▸ rfl) k
  case pc => rw [State.setPc_pc, hpc]; exact BitVec.add_assoc s.pc 2#8 2#8
  case cells => subst ht; exact fun k => pushReg_readByte i s

/-- Settles O34: CMP leaves Equal set exactly when the operands are equal, and each jump follows Equal. -/
theorem jumpsFollowTheLatestCompare : Obligations.JumpsFollowTheLatestCompare := by
  intro a b c i j k s ha hb hc hadv
  obtain ⟨t, ht⟩ : ∃ t, t = (s.setFlags (compareFlags (s.reg i) (s.reg j))).setPc (s.pc + 3#8) := ⟨_, rfl⟩
  have hpc : t.pc = s.pc + 3#8 := ht ▸ rfl
  have hcfg : t.cfg = s.cfg := ht ▸ rfl
  have hreg : t.reg k = s.reg k := ht ▸ rfl
  have he : t.fl.e = decide (s.reg i = s.reg j) := ht ▸ compareFlags_e ..
  have hct : t.selects c k := ht ▸ hc
  obtain ⟨hadv1, hadv2⟩ := canAdvance_add (m := 3) (n := 2) hadv hpc hcfg
  have hnext : t.pc + 2#8 = s.pc + 5#8 := hpc ▸ BitVec.add_assoc s.pc 3#8 2#8
  refine ⟨t, ?cmp, ?jeq, ?jne⟩
  case cmp => rw [exec_cmp_of_selects ha hb, ht]; exact movePc_of_fits hadv1
  case jeq => simp only [exec_jeq_of_selects hct hadv2, he, decide_eq_true_eq, hreg, hnext]; rfl
  case jne => simp only [exec_jne_of_selects hct hadv2, he, decide_eq_true_eq, hreg, hnext]; rfl

/-- Settles O35: PRN reads the register LDI has just written. -/
theorem ldiThenPrnEmitsTheImmediate : Obligations.LdiThenPrnEmitsTheImmediate := by
  intro a v i s ha hadv
  obtain ⟨t, ht⟩ : ∃ t, t = (s.setReg i v).setPc (s.pc + 3#8) := ⟨_, rfl⟩
  have hpc : t.pc = s.pc + 3#8 := ht ▸ rfl
  have hcfg : t.cfg = s.cfg := ht ▸ rfl
  have hreg : t.reg i = v := ht ▸ State.reg_setReg_same s i v
  have hout : t.out = s.out := ht ▸ rfl
  obtain ⟨hadv1, hadv2⟩ := canAdvance_add (m := 3) (n := 2) hadv hpc hcfg
  have hat : t.selects a i := ht ▸ ha
  refine ⟨t, (t.emit (t.reg i)).setPc (t.pc + 2#8), ?ldi, ?prn, ?out, ?pc⟩
  case ldi => rw [exec_ldi_of_selects v ha, ht]; exact movePc_of_fits hadv1
  case prn => rw [exec_prn_of_selects hat]; exact movePc_of_fits hadv2
  case out => rw [State.setPc_out, State.emit_out, hout, hreg]
  case pc => rw [State.setPc_pc, hpc]; exact BitVec.add_assoc s.pc 3#8 2#8

end Sys2Proof.Proofs
end

section
/-! PROOFS. Every outcome an instruction can have, said once with its conditions: where it completes, where it stops, and where pc goes
(40_engine_cycle.md R85, R86; 60_exceptions.md section 4). -/

namespace Sys2Proof

/-- An instruction has as many operand bytes as its key declares (30_encoding.md R67 (b)). -/
theorem Instr.operands_length (i : Instr) : i.operands.length = operandCount i.op.byte := by
  cases i <;> simp [Instr.operands, Instr.op]

/-- HLT's row has one instruction. -/
theorem Instr.eq_hlt_of_op {i : Instr} (h : i.op = .hlt) : i = .hlt := by
  cases i with
  | hlt => rfl
  | _ => cases h

namespace Machine

variable {s t u : State} {i : Instr} {a b : Byte}

/-! ### One instruction -/

/-- `Outcomes s i r`: the instruction `i` may answer `r` in the state `s`. -/
inductive Outcomes (s : State) (i : Instr) : Result → Prop where
  | badIndex (hp : s.cfg.regIndex = .refuse) (hw : i.wellFormed = false) : Outcomes s i (.fault .regIndex)
  | aborts {a b : Byte} {e : RegIx} (hi : i = .div a b) (hb : s.selects b e) (hz : s.reg e = 0#8) :
      Outcomes s i (.next (s.abort .divideByZero))
  | advances {u : State} (hbit : selfAdvance i.op.byte = false) (hpc : u.pc = s.pc) (hcfg : u.cfg = s.cfg)
      (hrun : u.run = if i = .hlt then .halted else s.run) : Outcomes s i (movePc (i.operands.length + 1) u)
  | jumps {a : Byte} {d : RegIx} (hi : i = .jmp a ∨ i = .jeq a ∨ i = .jne a) (ha : s.selects a d) :
      Outcomes s i (.next (s.setPc (s.reg d)))
  | fallsThrough {a : Byte} (hi : i = .jeq a ∨ i = .jne a) : Outcomes s i (movePc 2 s)

namespace Outcomes

/-- An operand used as a register selects one, or stops the instruction where it is not well-formed. -/
theorem of_withReg {body : RegIx → Result} (hw : namesRegister a = false → i.wellFormed = false)
    (h : ∀ d, s.selects a d → Outcomes s i (body d)) : Outcomes s i (withReg a s body) := by
  cases ha : regOperand s.cfg.regIndex a with
  | some d => rw [withReg_some body ha]; exact h d ha
  | none =>
    obtain ⟨hp, hlt⟩ := regOperand_none_iff.mp ha
    rw [withReg_none body ha]
    exact .badIndex hp (hw (by simpa [namesRegister] using hlt))

/-- Step 5 in the state a handler left. -/
theorem of_advance (hbit : selfAdvance i.op.byte = false) (hpc : u.pc = s.pc) (hcfg : u.cfg = s.cfg)
    (hrun : u.run = if i = .hlt then .halted else s.run) : Outcomes s i (advance i.op.byte u) := by
  rw [advance_clear hbit, ← Instr.operands_length]
  exact .advances hbit hpc hcfg hrun

/-- A handler around an ALU request: step 5, or the abort if the request may raise. -/
theorem of_finishAlu {op : AluOp} {d e : RegIx} (hbit : selfAdvance i.op.byte = false) (hi : i ≠ .hlt)
    (hraise : ∀ c, alu op d e s = .raise c → Outcomes s i (.next (s.abort c))) :
    Outcomes s i (finishAlu i.op.byte s (alu op d e s)) := by
  cases hu : alu op d e s with
  | raise c => exact hraise c hu
  | done u =>
    have hrun : s.run = if i = .hlt then .halted else s.run := (if_neg hi).symm
    obtain ⟨-, v, rfl⟩ | ⟨-, rfl⟩ := alu_done hu
    · exact of_advance hbit rfl rfl hrun
    · exact of_advance hbit rfl rfl hrun

/-- No request but DIV and an unsupported one raises (60_exceptions.md R151, R152). -/
theorem alu_ne_raise {op : AluOp} {d e : RegIx} (hop : op ≠ .div ∧ op ≠ .unsupported) (c : AbortCause) :
    alu op d e s ≠ .raise c := by
  intro hc
  obtain ⟨h, -⟩ | ⟨h, -⟩ := alu_raise hc
  · exact hop.1 h
  · exact hop.2 h

/-- A two-register request other than DIV. -/
theorem of_aluTwo {op : AluOp} (hbit : selfAdvance i.op.byte = false) (hi : i ≠ .hlt)
    (hw : i.wellFormed = (namesRegister a && namesRegister b)) (hop : op ≠ .div ∧ op ≠ .unsupported) :
    Outcomes s i (aluTwo i.op.byte op a b s) := by
  refine of_withReg (fun ha => by simp [hw, ha]) fun d _ => of_withReg (fun hb => by simp [hw, hb]) fun e _ => ?_
  exact of_finishAlu hbit hi fun c hc => absurd hc (alu_ne_raise hop c)

/-- A one-register request. -/
theorem of_aluOne {op : AluOp} (hbit : selfAdvance i.op.byte = false) (hi : i ≠ .hlt)
    (hw : i.wellFormed = namesRegister a) (hop : op ≠ .div ∧ op ≠ .unsupported) :
    Outcomes s i (aluOne i.op.byte op a s) :=
  of_withReg (fun ha => hw.trans ha) fun _ _ => of_finishAlu hbit hi fun c hc => absurd hc (alu_ne_raise hop c)

/-- The taken arm of a jump. -/
theorem of_jumpTo (hi : i = .jmp a ∨ i = .jeq a ∨ i = .jne a) : Outcomes s i (jumpTo a s) := by
  refine of_withReg (fun ha => ?_) (fun _ ha => .jumps hi ha)
  rcases hi with rfl | rfl | rfl <;> exact ha

end Outcomes

/-- Everything exec can answer. -/
theorem exec_outcomes (i : Instr) (s : State) : Outcomes s i (exec i s) := by
  cases i with
  | hlt => exact .of_advance (u := s.halt) selfAdvance_hlt rfl rfl rfl
  | ldi a b => exact .of_withReg id fun d _ => .of_advance (u := s.setReg d b) selfAdvance_ldi rfl rfl rfl
  | prn a => exact .of_withReg id fun d _ => .of_advance (u := s.emit (s.reg d)) selfAdvance_prn rfl rfl rfl
  | push a => exact .of_withReg id fun d _ => .of_advance (u := pushReg d s) selfAdvance_push rfl rfl rfl
  | pop a => exact .of_withReg id fun d _ => .of_advance (u := popReg d s) selfAdvance_pop rfl rfl rfl
  | mul a b => exact .of_aluTwo selfAdvance_mul nofun rfl (by decide)
  | sub a b => exact .of_aluTwo selfAdvance_sub nofun rfl (by decide)
  | cmp a b => exact .of_aluTwo selfAdvance_cmp nofun rfl (by decide)
  | inc a => exact .of_aluOne selfAdvance_inc nofun rfl (by decide)
  | dec a => exact .of_aluOne selfAdvance_dec nofun rfl (by decide)
  | div a b =>
    refine .of_withReg (fun ha => by simp [Instr.wellFormed, ha]) fun d _ =>
      .of_withReg (fun hb => by simp [Instr.wellFormed, hb]) fun e hb => ?_
    refine .of_finishAlu (i := .div a b) selfAdvance_div nofun fun c hc => ?_
    obtain ⟨-, hz, rfl⟩ | ⟨h, -⟩ := alu_raise hc
    · exact .aborts rfl hb hz
    · cases h
  | jmp a => exact .of_jumpTo (.inl rfl)
  | jeq a =>
    cases he : s.fl.e with
    | true => rw [exec_jeq_of_set he]; exact .of_jumpTo (.inr (.inl rfl))
    | false => rw [exec_jeq_of_clear he]; exact .fallsThrough (.inl rfl)
  | jne a =>
    cases he : s.fl.e with
    | true => rw [exec_jne, execJne_of_set he]; exact .fallsThrough (.inr rfl)
    | false => rw [exec_jne, execJne_of_clear he]; exact .of_jumpTo (.inr (.inr rfl))

/-- The same, for a case analysis beside the equation it comes from. -/
theorem exec_eq_outcome (i : Instr) (s : State) : ∃ r, exec i s = r ∧ Outcomes s i r :=
  ⟨_, rfl, exec_outcomes i s⟩

/-- Where no index is refused, or the byte names a register, an operand selects one. -/
theorem exists_selects (h : s.cfg.regIndex = .mask3 ∨ namesRegister a = true) : ∃ d, s.selects a d := by
  cases ha : regOperand s.cfg.regIndex a with
  | some d => exact ⟨d, ha⟩
  | none =>
    obtain ⟨hp, hlt⟩ := regOperand_none_iff.mp ha
    rw [hp, namesRegister, decide_eq_true_eq] at h
    exact absurd (h.resolve_left nofun) (by omega)

/-- A jump's key has bit 4 set (R67 (c)), and a jump has one operand and is not HLT. -/
theorem jump_selfAdvance_and_length (hi : i = .jmp a ∨ i = .jeq a ∨ i = .jne a) :
    selfAdvance i.op.byte = true ∧ i.operands.length + 1 = 2 ∧ i ≠ .hlt := by
  rcases hi with rfl | rfl | rfl <;> simp [Instr.op, Instr.operands]

/-! ### Where a step may stop -/

/-- `StopsOnlyUnder c r`: under the policies `c`, `r` is a next state or one of the two specified stops. -/
inductive StopsOnlyUnder (c : Config) : Result → Prop where
  | next (t : State) : StopsOnlyUnder c (.next t)
  | addrOverrun (h : c.addrOverrun = .refuse) : StopsOnlyUnder c (.fault .addrOverrun)
  | regIndex (h : c.regIndex = .refuse) : StopsOnlyUnder c (.fault .regIndex)

theorem movePc_stops (n : Nat) (s : State) : StopsOnlyUnder s.cfg (movePc n s) := by
  obtain ⟨-, hp, h⟩ | ⟨-, h⟩ := movePc_cases n s
  · exact h ▸ .addrOverrun hp
  · exact h ▸ .next _

theorem advance_stops (ir : Byte) (s : State) : StopsOnlyUnder s.cfg (advance ir s) := by
  unfold advance
  split
  · exact .next s
  · exact movePc_stops _ s

theorem exec_stops (i : Instr) (s : State) : StopsOnlyUnder s.cfg (exec i s) := by
  obtain ⟨r, hr, ho⟩ := exec_eq_outcome i s
  rw [hr]
  cases ho with
  | badIndex hp => exact .regIndex hp
  | aborts => exact .next _
  | @advances u _ _ hcfg => exact hcfg ▸ movePc_stops _ u
  | jumps => exact .next _
  | fallsThrough => exact movePc_stops 2 s

theorem execAdd_stops (a b : Byte) (s : State) : StopsOnlyUnder s.cfg (execAdd a b s) := by
  cases ha : regOperand s.cfg.regIndex a with
  | none =>
    rw [execAdd, aluTwo, withRegs_none _ (.inl ha)]
    exact .regIndex (regOperand_none_iff.mp ha).1
  | some d =>
    cases hb : regOperand s.cfg.regIndex b with
    | none =>
      rw [execAdd, aluTwo, withRegs_none _ (.inr hb)]
      exact .regIndex (regOperand_none_iff.mp hb).1
    | some e =>
      rw [execAdd_of_selects ha hb]
      exact movePc_stops 3 (s.setReg d _)

theorem execUnlisted_stops (ir a b : Byte) (s : State) : StopsOnlyUnder s.cfg (execUnlisted ir a b s) := by
  unfold execUnlisted
  split
  · exact execAdd_stops a b s
  · exact advance_stops ir s

/-- A step stops only where a refuse policy says so, and only while Running. -/
theorem step_stops (s : State) : (s.run ≠ .running ∧ ∃ t, step s = .next t) ∨
    (s.run = .running ∧ StopsOnlyUnder s.cfg (step s)) := by
  by_cases hr : s.run = .running
  · refine .inr ⟨hr, ?_⟩
    rw [step_of_running hr]
    obtain ⟨-, hp, h⟩ | ⟨i, _, -, -, h⟩ | ⟨-, h⟩ := cycle_cases s
    · exact h ▸ .addrOverrun hp
    · exact h ▸ exec_stops i s
    · exact h ▸ execUnlisted_stops _ _ _ s
  · exact .inl ⟨hr, _, step_not_running hr⟩

/-! ### Where pc goes -/

/-- Step 5 leaves pc alone with bit 4 set and moves it by the decoded count plus one with bit 4 clear. -/
theorem advance_next_pc {ir : Byte} (h : advance ir u = .next t) :
    (selfAdvance ir = true ∧ t.pc = u.pc) ∨
      (selfAdvance ir = false ∧ t.pc = u.pc + BitVec.ofNat 8 (operandCount ir + 1)) := by
  cases hbit : selfAdvance ir with
  | true =>
    rw [advance_set hbit] at h
    cases h
    exact .inl ⟨rfl, rfl⟩
  | false =>
    rw [advance_clear hbit] at h
    obtain rfl := movePc_next h
    exact .inr ⟨rfl, rfl⟩

/-- A byte with no row, ADD's included, leaves pc to step 5. -/
theorem execUnlisted_next_pc {ir : Byte} (h : execUnlisted ir a b s = .next t) :
    (selfAdvance ir = true ∧ t.pc = s.pc) ∨
      (selfAdvance ir = false ∧ t.pc = s.pc + BitVec.ofNat 8 (operandCount ir + 1)) := by
  unfold execUnlisted at h
  split at h
  next hx =>
    obtain ⟨-, rfl⟩ := hx
    obtain ⟨d, e, ha, hb, -⟩ := withRegs_next h
    rw [execAdd_of_selects ha hb] at h
    obtain rfl := movePc_next h
    exact .inr ⟨selfAdvance_add, by rw [operandCount_add]; rfl⟩
  next => exact advance_next_pc h

/-- Where an instruction leaves pc: at its abort, after its operand bytes, or where a jump sent it. -/
theorem exec_next_pc (h : exec i s = .next t) :
    (selfAdvance i.op.byte = false ∧ i ≠ .hlt ∧ t.pc = s.pc ∧ t.run = .aborted .divideByZero) ∨
      (selfAdvance i.op.byte = false ∧ t.pc = s.pc + BitVec.ofNat 8 (operandCount i.op.byte + 1) ∧
        t.run = if i = .hlt then .halted else s.run) ∨
      (selfAdvance i.op.byte = true ∧ i ≠ .hlt ∧ ∃ a d, i.operands = [a] ∧ s.selects a d ∧ t.pc = s.reg d) ∨
      (selfAdvance i.op.byte = true ∧ i ≠ .hlt ∧ (i.op = .jeq ∨ i.op = .jne) ∧ t.pc = s.pc + 2#8) := by
  obtain ⟨r, hr, ho⟩ := exec_eq_outcome i s
  rw [hr] at h
  cases ho with
  | badIndex => cases h
  | aborts hi =>
    cases h
    subst hi
    exact .inl ⟨selfAdvance_div, nofun, rfl, rfl⟩
  | @advances u hbit hpc _ hrun =>
    obtain rfl := movePc_next h
    refine .inr (.inl ⟨hbit, ?_, hrun⟩)
    rw [State.setPc_pc, hpc, Instr.operands_length]
  | @jumps a d hi ha =>
    cases h
    obtain ⟨hbit, -, hhlt⟩ := jump_selfAdvance_and_length hi
    refine .inr (.inr (.inl ⟨hbit, hhlt, a, d, ?_, ha, rfl⟩))
    rcases hi with rfl | rfl | rfl <;> rfl
  | fallsThrough hi =>
    obtain rfl := movePc_next h
    obtain ⟨hbit, -, hhlt⟩ := jump_selfAdvance_and_length (.inr hi)
    refine .inr (.inr (.inr ⟨hbit, hhlt, ?_, rfl⟩))
    exact hi.imp (congrArg Instr.op) (congrArg Instr.op)

end Machine

end Sys2Proof

namespace Sys2Proof.Proofs

open Sys2Proof Sys2Proof.Machine

/-- Settles O44: of a step's outcomes only the two stops are no next state, each under its policy. -/
theorem stepStopsOnlyWhereUnspecified : Obligations.StepStopsOnlyWhereUnspecified := by
  intro s
  obtain ⟨-, t, h⟩ | ⟨hr, h⟩ := step_stops s
  · exact ⟨fun f hf => by simp [h] at hf, fun r hf => by simp [h] at hf⟩
  · generalize step s = r at h
    cases h with
    | next t => exact ⟨nofun, nofun⟩
    | addrOverrun hp => exact ⟨fun f hf => ⟨hr, .inl ⟨by cases hf; rfl, hp⟩⟩, nofun⟩
    | regIndex hp => exact ⟨fun f hf => ⟨hr, .inr ⟨by cases hf; rfl, hp⟩⟩, nofun⟩

/-- Settles O45: neither policy refuses, so neither stop is left. -/
theorem stepIsTotalUnderWrapAndMask3 : Obligations.StepIsTotalUnderWrapAndMask3 := by
  intro s hw hm
  obtain ⟨-, h⟩ | ⟨-, h⟩ := step_stops s
  · exact h
  · generalize step s = r at h
    cases h with
    | next t => exact ⟨t, rfl⟩
    | addrOverrun hp => rw [hw] at hp; cases hp
    | regIndex hp => rw [hm] at hp; cases hp

/-- Settles O12: with its registers selected and no abort, an instruction's only other outcome is an advance, which overruns. -/
theorem advanceOverrunStops : Obligations.AdvanceOverrunStops := by
  intro i s hp hover
  have hnot {u : State} (hpc : u.pc = s.pc) (hcfg : u.cfg = s.cfg) : ¬ u.canAdvance (i.operands.length + 1) := by
    rw [State.canAdvance, hpc, hcfg, hp]
    simp only [reduceCtorEq, or_false]
    omega
  refine ⟨fun hjmp hjeq hjne hsel hdiv => ?others, fun hop he => ?jeq, fun hop he => ?jne⟩
  case others =>
    obtain ⟨r, hr, ho⟩ := exec_eq_outcome i s
    rw [hr]
    cases ho with
    | badIndex hp' hw => simp [hp', hw] at hsel
    | aborts hi hb hz => exact absurd hz (hdiv _ _ _ hi hb)
    | advances _ hpc hcfg => exact movePc_of_overruns (hnot hpc hcfg)
    | jumps hi => rcases hi with rfl | rfl | rfl <;> contradiction
    | fallsThrough hi => rcases hi with rfl | rfl <;> contradiction
  case jeq =>
    cases i with
    | jeq a => exact (exec_jeq_of_clear he).trans (movePc_of_overruns (hnot rfl rfl))
    | _ => cases hop
  case jne =>
    cases i with
    | jne a => exact (execJne_of_set he).trans (movePc_of_overruns (hnot rfl rfl))
    | _ => cases hop

/-- Settles O47: with registers selected and an advance that fits, every outcome left is a next state. -/
theorem everyInstructionCompletes : Obligations.EveryInstructionCompletes := by
  refine fun i s hsel hadv => ⟨fun hdiv => ?completes, fun a b e hi hb hz => ?aborts⟩
  case completes =>
    have hfits {u : State} (hpc : u.pc = s.pc) (hcfg : u.cfg = s.cfg) : u.canAdvance (i.operands.length + 1) := by
      rwa [State.canAdvance, hpc, hcfg]
    obtain ⟨r, hr, ho⟩ := exec_eq_outcome i s
    rw [hr]
    cases ho with
    | badIndex hp hw => simp [hp, hw] at hsel
    | aborts hi hb hz => exact absurd hz (hdiv _ _ _ hi hb)
    | advances _ hpc hcfg hrun => exact ⟨_, movePc_of_fits (hfits hpc hcfg), hrun⟩
    | jumps hi =>
      obtain ⟨-, -, hhlt⟩ := jump_selfAdvance_and_length hi
      exact ⟨_, rfl, (if_neg hhlt).symm⟩
    | fallsThrough hi =>
      obtain ⟨-, hlen, hhlt⟩ := jump_selfAdvance_and_length (.inr hi)
      exact ⟨_, movePc_of_fits (hlen ▸ hadv), (if_neg hhlt).symm⟩
  case aborts =>
    subst hi
    obtain ⟨d, ha⟩ : ∃ d, s.selects a d := exists_selects (hsel.imp_right fun hw => by
      simp only [Instr.wellFormed, Bool.and_eq_true] at hw
      exact hw.1)
    exact exec_div_of_zero ha hb hz

/-- Settles O13: pc by the outcome of the instruction fetched, or by step 5 alone for a byte with no row. -/
theorem advanceFollowsBitFour : Obligations.AdvanceFollowsBitFour := by
  intro s t hf h
  have hset (hbit : (s.readByte s.pc).toNat / 16 % 2 = 1) := selfAdvance_of_bit_set hbit
  have hclear (hbit : (s.readByte s.pc).toNat / 16 % 2 = 0) := selfAdvance_of_bit_clear hbit
  rw [← operandCount_eq_div]
  obtain ⟨i, rest, hd, hb, he⟩ | ⟨hu, he⟩ := step_running_next hf.1 h
  · have hbytes := decode_ok_iff.mp hd
    have hop (o : Op) := readByte_pc_eq_byte_iff hbytes o
    have hhlt (h1 : s.readByte s.pc = 0x01#8) : i = .hlt := Instr.eq_hlt_of_op ((hop .hlt).mp h1)
    have hpcs := exec_next_pc he
    rw [hb] at hpcs
    obtain ⟨-, hne, hpc, hrun⟩ | ⟨hbit, hpc, hrun⟩ | ⟨hbit, hne, a, d, ha, hsel, hpc⟩ | ⟨hbit, hne, hj, hpc⟩ := hpcs
    · exact ⟨fun _ hna => absurd hrun (hna _), fun h1 => absurd (hhlt h1) hne, fun _ => .inl hpc⟩
    · refine ⟨fun _ _ => hpc, fun h1 => ⟨hpc.trans ?_, hrun.trans (if_pos (hhlt h1))⟩, fun h1 => by simp [hset h1] at hbit⟩
      rw [h1]
      rfl
    · rw [encode, ha] at hbytes
      have hopa : s.readByte (s.pc + 1#8) = a := (List.cons.inj (List.cons.inj hbytes).2).1
      exact ⟨fun h0 => by simp [hclear h0] at hbit, fun h1 => absurd (hhlt h1) hne,
        fun _ => .inr (.inr ⟨d, hopa ▸ hsel, hpc⟩)⟩
    · exact ⟨fun h0 => by simp [hclear h0] at hbit, fun h1 => absurd (hhlt h1) hne,
        fun _ => .inr (.inl ⟨hj.imp (hop .jeq).mpr (hop .jne).mpr, hpc⟩)⟩
  · have hrow := decodeOp_none_iff.mp hu
    obtain ⟨hbit, hpc⟩ | ⟨hbit, hpc⟩ := execUnlisted_next_pc he
    · exact ⟨fun h0 => by simp [hclear h0] at hbit, fun h1 => absurd h1.symm (hrow .hlt), fun _ => .inl hpc⟩
    · exact ⟨fun _ _ => hpc, fun h1 => absurd h1.symm (hrow .hlt), fun h1 => by simp [hset h1] at hbit⟩

end Sys2Proof.Proofs
end

section
/-! PROOFS. Two states side by side: a step neither sees Less and Greater (10_state.md R28) nor, where it completes under a refuse
policy, which policy it is (92_eei_decisions.md D5, D6). One comparison serves both: the flags and the configuration are replaced. -/

namespace Sys2Proof

/-- `c` has the policies of `c₀`, or others where `c₀` refuses. -/
structure Config.ExtendedBy (c₀ c : Config) : Prop where
  exposeAdd : c.exposeAdd = c₀.exposeAdd
  addrOverrun : c₀.addrOverrun = .refuse ∨ c.addrOverrun = c₀.addrOverrun
  regIndex : c₀.regIndex = .refuse ∨ c.regIndex = c₀.regIndex

theorem Config.ExtendedBy.refl (c : Config) : c.ExtendedBy c := ⟨rfl, .inr rfl, .inr rfl⟩

namespace Machine

/-- The same state with other flags and another configuration. -/
def State.recast (f : Flags) (c : Config) (s : State) : State := { s with fl := f, cfg := c }

variable {s t u : State} {f : Flags} {c : Config} {a b : Byte}

/-! ### The shared operations -/

/-- An advance that fits or wraps still does so. -/
theorem canAdvance_recast {n : Nat} (hc : u.cfg.ExtendedBy c) (h : u.canAdvance n) : (u.recast f c).canAdvance n := by
  rcases h with h | h
  · exact .inl h
  · refine .inr ?_
    rcases hc.addrOverrun with hp | hp
    · rw [h] at hp; cases hp
    · exact hp.trans h

/-- An operand that selects a register still selects it. -/
theorem selects_recast {d : RegIx} (hc : s.cfg.ExtendedBy c) (h : s.selects a d) : (s.recast f c).selects a d := by
  rcases hc.regIndex with hp | hp
  · rw [State.selects, hp] at h
    obtain h | ⟨h, -⟩ := regOperand_eq_some_iff.mp h
    · exact regOperand_eq_some_iff.mpr (.inl h)
    · cases h
  · exact (congrArg (regOperand · a) hp).trans h

/-- An advance that completes fits or wraps. -/
theorem canAdvance_of_movePc_next {n : Nat} (h : movePc n u = .next t) : u.canAdvance n := by
  by_contra hn
  rw [movePc_of_overruns hn] at h
  cases h

theorem movePc_recast {n : Nat} (hc : u.cfg.ExtendedBy c) (h : movePc n u = .next t) :
    movePc n (u.recast f c) = .next (t.recast f c) := by
  rw [movePc_next h]
  exact movePc_of_fits (canAdvance_recast hc (canAdvance_of_movePc_next h))

theorem advance_recast {ir : Byte} (hc : u.cfg.ExtendedBy c) (h : advance ir u = .next t) :
    advance ir (u.recast f c) = .next (t.recast f c) := by
  cases hbit : selfAdvance ir with
  | true =>
    rw [advance_set hbit] at h ⊢
    cases h
    rfl
  | false =>
    rw [advance_clear hbit] at h ⊢
    exact movePc_recast hc h

theorem withReg_recast {body body' : RegIx → Result} {r : Result} (hc : s.cfg.ExtendedBy c)
    (h : withReg a s body = .next t) (hbody : ∀ d, body d = .next t → body' d = r) :
    withReg a (s.recast f c) body' = r := by
  obtain ⟨d, ha, h⟩ := withReg_next h
  rw [withReg_some body' (selects_recast hc ha)]
  exact hbody d h

/-- An ALU request other than a comparison reads no flag and no policy. -/
theorem finishAlu_recast {ir : Byte} {op : AluOp} {d e : RegIx} (hc : s.cfg.ExtendedBy c) (hop : op ≠ .cmp)
    (h : finishAlu ir s (alu op d e s) = .next t) :
    finishAlu ir (s.recast f c) (alu op d e (s.recast f c)) = .next (t.recast f c) := by
  cases op with
  | cmp => exact absurd rfl hop
  | unsupported => cases h; rfl
  | div =>
    by_cases hz : s.reg e = 0#8
    · rw [show alu .div d e s = .raise .divideByZero from if_pos hz] at h
      rw [show alu .div d e (s.recast f c) = .raise .divideByZero from if_pos hz]
      cases h
      rfl
    · rw [alu_div_of_ne_zero d hz] at h
      rw [alu_div_of_ne_zero d (show (s.recast f c).reg e ≠ 0#8 from hz)]
      exact advance_recast (u := s.setReg d _) hc h
  | mul => exact advance_recast (u := s.setReg d _) hc h
  | add => exact advance_recast (u := s.setReg d _) hc h
  | sub => exact advance_recast (u := s.setReg d _) hc h
  | inc => exact advance_recast (u := s.setReg d _) hc h
  | dec => exact advance_recast (u := s.setReg d _) hc h

theorem aluTwo_recast {ir : Byte} {op : AluOp} (hc : s.cfg.ExtendedBy c) (hop : op ≠ .cmp)
    (h : aluTwo ir op a b s = .next t) : aluTwo ir op a b (s.recast f c) = .next (t.recast f c) :=
  withReg_recast hc h fun _ h => withReg_recast hc h fun _ h => finishAlu_recast hc hop h

theorem aluOne_recast {ir : Byte} {op : AluOp} (hc : s.cfg.ExtendedBy c) (hop : op ≠ .cmp)
    (h : aluOne ir op a s = .next t) : aluOne ir op a (s.recast f c) = .next (t.recast f c) :=
  withReg_recast hc h fun _ h => finishAlu_recast hc hop h

theorem jumpTo_recast (hc : s.cfg.ExtendedBy c) (h : jumpTo a s = .next t) :
    jumpTo a (s.recast f c) = .next (t.recast f c) :=
  withReg_recast hc h fun _ h => by cases h; rfl

/-! ### Instructions -/

/-- No instruction but CMP makes anything of the flags but Equal, or of a policy under which it completed. -/
theorem exec_recast {i : Instr} (hc : s.cfg.ExtendedBy c) (he : f.e = s.fl.e) (hi : i.op ≠ .cmp)
    (h : exec i s = .next t) : exec i (s.recast f c) = .next (t.recast f c) := by
  cases i with
  | cmp => exact absurd rfl hi
  | hlt => exact advance_recast (ir := Op.hlt.byte) (u := s.halt) hc h
  | ldi a b => exact withReg_recast hc h fun d h => advance_recast (u := s.setReg d b) hc h
  | prn a => exact withReg_recast hc h fun d h => advance_recast (u := s.emit (s.reg d)) hc h
  | push a => exact withReg_recast hc h fun d h => advance_recast (u := pushReg d s) hc h
  | pop a => exact withReg_recast hc h fun d h => advance_recast (u := popReg d s) hc h
  | mul a b => exact aluTwo_recast hc (by decide) h
  | sub a b => exact aluTwo_recast hc (by decide) h
  | div a b => exact aluTwo_recast hc (by decide) h
  | inc a => exact aluOne_recast hc (by decide) h
  | dec a => exact aluOne_recast hc (by decide) h
  | jmp a => exact jumpTo_recast hc h
  | jeq a =>
    cases hs : s.fl.e with
    | true =>
      rw [exec_jeq_of_set hs] at h
      exact (exec_jeq_of_set (he.trans hs)).trans (jumpTo_recast hc h)
    | false =>
      rw [exec_jeq_of_clear hs] at h
      exact (exec_jeq_of_clear (he.trans hs)).trans (movePc_recast hc h)
  | jne a =>
    cases hs : s.fl.e with
    | true =>
      rw [exec_jne, execJne_of_set hs] at h
      exact (execJne_of_set (he.trans hs)).trans (movePc_recast hc h)
    | false =>
      rw [exec_jne, execJne_of_clear hs] at h
      exact (execJne_of_clear (he.trans hs)).trans (jumpTo_recast hc h)

/-- CMP overwrites the flags, whatever they were. -/
theorem exec_cmp_recast (hc : s.cfg.ExtendedBy c) (h : exec (.cmp a b) s = .next t) :
    exec (.cmp a b) (s.recast f c) = .next (t.recast t.fl c) := by
  refine withReg_recast hc h fun d h => withReg_recast hc h fun e h => ?_
  have hfl : t.fl = compareFlags (s.reg d) (s.reg e) := by
    obtain ⟨p, rfl⟩ := advance_next (s := s.setFlags (compareFlags (s.reg d) (s.reg e))) h
    rfl
  rw [hfl]
  exact advance_recast (u := s.setFlags (compareFlags (s.reg d) (s.reg e))) hc h

theorem execUnlisted_recast {ir : Byte} (hc : s.cfg.ExtendedBy c) (h : execUnlisted ir a b s = .next t) :
    execUnlisted ir a b (s.recast f c) = .next (t.recast f c) := by
  have hx : (s.recast f c).cfg.exposeAdd = s.cfg.exposeAdd := hc.exposeAdd
  unfold execUnlisted at h ⊢
  rw [hx]
  split at h
  next hadd =>
    rw [if_pos hadd]
    exact aluTwo_recast hc (by decide) h
  next hadd =>
    rw [if_neg hadd]
    exact advance_recast hc h

/-! ### Steps -/

/-- A cycle that answers a next state could fetch. -/
theorem canFetch_of_step_next (hr : s.run = .running) (h : step s = .next t) : s.canFetch := by
  refine ⟨hr, ?_⟩
  by_contra hn
  rw [not_or, Nat.not_le] at hn
  have hp : s.cfg.addrOverrun = .refuse := by
    cases hp : s.cfg.addrOverrun with
    | refuse => rfl
    | wrap => exact absurd hp hn.2
  rw [step_of_fetch_overrun hr hp (by omega)] at h
  cases h

/-- A Running step with other flags that agree on Equal, and an extended configuration: the same, with those flags kept unless the
opcode is CMP's. -/
theorem step_recast (hr : s.run = .running) (hc : s.cfg.ExtendedBy c) (he : f.e = s.fl.e) (h : step s = .next t) :
    (s.readByte s.pc ≠ Op.cmp.byte → step (s.recast f c) = .next (t.recast f c)) ∧
      (s.readByte s.pc = Op.cmp.byte → step (s.recast f c) = .next (t.recast t.fl c)) := by
  obtain ⟨-, hadv⟩ := canFetch_of_step_next hr h
  have hf : (s.recast f c).canFetch := ⟨hr, canAdvance_recast hc hadv⟩
  obtain ⟨i, rest, hd, -, h⟩ | ⟨hu, h⟩ := step_running_next hr h
  · rw [step_of_fetched hf hd]
    have hop := readByte_pc_eq_byte_iff (decode_ok_iff.mp hd) .cmp
    refine ⟨fun hne => exec_recast hc he (mt hop.mpr hne) h, fun hb => ?_⟩
    cases i with
    | cmp a b => exact exec_cmp_recast hc h
    | _ => cases hop.mp hb
  · rw [step_of_unlisted hf hu]
    exact ⟨fun _ => execUnlisted_recast hc h, fun hb => absurd hb.symm (decodeOp_none_iff.mp hu .cmp)⟩

/-- The same for the configuration alone, from every run state. -/
theorem step_recast_cfg (hc : s.cfg.ExtendedBy c) (h : step s = .next t) :
    step (s.recast s.fl c) = .next (t.recast t.fl c) := by
  by_cases hr : s.run = .running
  · obtain ⟨hother, hcmp⟩ := step_recast hr hc rfl h
    by_cases hb : s.readByte s.pc = Op.cmp.byte
    · exact hcmp hb
    · obtain ⟨-, hb', -⟩ | ⟨-, hfl⟩ := (step_effect h).fl_cases
      · exact absurd hb' hb
      · rw [hfl]
        exact hother hb
  · rw [step_not_running hr] at h
    rw [step_not_running (s := s.recast s.fl c) hr]
    cases h
    by_cases hw : s.run = .waiting
    · rw [if_pos hw, if_pos (show (s.recast s.fl c).run = .waiting from hw)]
      rfl
    · rw [if_neg hw, if_neg (show (s.recast s.fl c).run ≠ .waiting from hw)]

end Machine

end Sys2Proof

namespace Sys2Proof.Proofs

open Sys2Proof Sys2Proof.Machine

/-- Settles O40: the comparison with the configuration as it is, which no step changes. -/
theorem lessAndGreaterAreUnobservable : Obligations.LessAndGreaterAreUnobservable := by
  intro s t f he hr h
  have hcfg (g : Flags) : t.recast g s.cfg = { t with fl := g } := by rw [← (step_effect h).cfg]; rfl
  obtain ⟨hother, hcmp⟩ := step_recast hr (.refl s.cfg) he h
  rw [hcfg] at hother hcmp
  exact ⟨hother, hcmp⟩

/-- Settles O46: the comparison with the flags as they are; the default policies refuse, so any others extend them. -/
theorem alternativePoliciesExtendTheDefault : Obligations.AlternativePoliciesExtendTheDefault :=
  fun _ _ _ hx hp hq h => step_recast_cfg ⟨hx, .inl hp, .inl hq⟩ h

end Sys2Proof.Proofs
end

section
/-! PROOFS. The envelope of 70_reset_and_hazards.md R181: what the watch says of one cycle, and what a run inside it says of every
later cycle. -/

namespace Sys2Proof.Machine

open Sys2Proof

/-! ### One cycle -/

variable {w : EnvelopeWatch} {s t u : State}

/-- The watch records the cell a PUSH stores to. -/
theorem pushAddr_mem_stored_observe (w : EnvelopeWatch) (hb : s.readByte s.pc = 0x45#8) :
    s.pushAddr.toNat ∈ (w.observe s).stored := by
  rw [observe_push w hb]
  exact List.mem_cons_self ..

/-- A watch that is ok after a PUSH saw it neither wrap nor store below the image. -/
theorem observe_ok_push (h : (w.observe s).ok = true) (hb : s.readByte s.pc = 0x45#8) :
    s.sp ≠ 0#8 ∧ w.imageLen ≤ s.pushAddr.toNat := by
  rw [observe_push w hb] at h
  simp only [Bool.and_eq_true, decide_eq_true_eq] at h
  obtain ⟨⟨-, hsp⟩, hlen⟩ := h
  exact ⟨hsp, hlen⟩

/-- A watch that is ok after a POP did not see it wrap. -/
theorem observe_ok_pop (h : (w.observe s).ok = true) (hb : s.readByte s.pc = 0x46#8) : s.sp ≠ 255#8 := by
  rw [observe_pop w hb] at h
  simp only [Bool.and_eq_true, decide_eq_true_eq] at h
  exact h.2

/-- A cell the watch has not recorded reads as before. -/
theorem readByte_of_not_mem_stored (h : step s = .next t) {a : Byte} (ha : a.toNat ∉ (w.observe s).stored) :
    t.readByte a = s.readByte a := by
  by_cases hb : s.readByte s.pc = 0x45#8
  · refine (step_effect h).readByte_of_ne ?_
    rintro rfl
    exact ha (pushAddr_mem_stored_observe w hb)
  · rw [State.readByte, State.readByte, (step_effect h).mem_of_ne_push hb]

/-! ### Runs of steps -/

section Runs

variable {M : Host.Core} {p q r : M.State}

/-- A run of at least one step that answers a next state made its first step. -/
theorem core_run_succ_next {k : Nat} (h : M.run (k + 1) p = .next q) :
    ∃ r, M.step p = .next r ∧ M.run k r = .next q := by
  cases hs : M.step p with
  | next r => exact ⟨r, rfl, core_run_succ hs k ▸ h⟩
  | fault f => rw [Host.Core.run, hs] at h; cases h
  | refused f => rw [Host.Core.run, hs] at h; cases h

/-- The steps of a run beyond its first k go on from where those led. -/
theorem core_run_add {k m : Nat} (h : M.run (k + m) p = .next r) (hk : M.run k p = .next q) : M.run m q = .next r := by
  induction k generalizing p with
  | zero =>
    obtain rfl : p = q := Host.Outcome.next.inj hk
    rwa [Nat.zero_add] at h
  | succ k ih =>
    obtain ⟨p', hs, hk⟩ := core_run_succ_next hk
    rw [Nat.add_right_comm, core_run_succ hs] at h
    exact ih h hk

end Runs

/-- Every state of a run inside the envelope is inside it for the steps left, with a watch that has forgotten nothing. -/
theorem insideEnvelope_run {k n : Nat} (h : insideEnvelope (k + n) w s = true)
    (hrun : Host.Core.run Sys2Proof.core k s = .next t) :
    ∃ w' : EnvelopeWatch, insideEnvelope n w' t = true ∧ w.stored ⊆ w'.stored ∧ w'.imageLen = w.imageLen := by
  induction k generalizing w s with
  | zero =>
    obtain rfl : s = t := Host.Outcome.next.inj hrun
    rw [Nat.zero_add] at h
    exact ⟨w, h, fun _ => id, rfl⟩
  | succ k ih =>
    obtain ⟨s', hs, hrun⟩ := core_run_succ_next hrun
    rw [Nat.add_right_comm] at h
    obtain ⟨w', h', hsub, hlen⟩ := ih (insideEnvelope_step h hs) hrun
    split at hsub
    next hr =>
      rw [if_pos hr, observe_imageLen] at hlen
      exact ⟨w', h', fun a ha => hsub (stored_subset_observe w s ha), hlen⟩
    next hr =>
      rw [if_neg hr] at hlen
      exact ⟨w', h', hsub, hlen⟩

/-- A state inside the envelope has pc at no recorded cell, and its cycle, if the run has one left, fetches from none. -/
theorem insideEnvelope_avoids {n : Nat} (h : insideEnvelope n w u = true) {a : Byte} (ha : a.toNat ∈ w.stored) :
    u.pc ≠ a ∧ (0 < n → u.run = .running → u.pc + 1#8 ≠ a ∧ u.pc + 2#8 ≠ a) := by
  have hne {b : Byte} (hb : b.toNat ∉ w.stored) : b ≠ a := fun hba => hb (hba ▸ ha)
  obtain ⟨-, hpc, hcycle⟩ := insideEnvelope_here h
  refine ⟨hne hpc, fun hn hr => ?_⟩
  obtain ⟨-, -, h1, h2⟩ := observe_ok (hcycle hn hr)
  exact ⟨hne h1, hne h2⟩

/-- After a PUSH inside the envelope every later state of the run avoids the cell it stored to. -/
theorem insideEnvelope_push_avoided {m n : Nat} (h : insideEnvelope (m + 1 + n) w s = true) (hr : s.run = .running)
    (hb : s.readByte s.pc = 0x45#8) (hrun : Host.Core.run Sys2Proof.core (m + 1) s = .next u) :
    u.pc ≠ s.pushAddr ∧ (0 < n → u.run = .running → u.pc + 1#8 ≠ s.pushAddr ∧ u.pc + 2#8 ≠ s.pushAddr) := by
  obtain ⟨t, hs, hrun⟩ := core_run_succ_next hrun
  rw [Nat.add_right_comm] at h
  have ht := insideEnvelope_step h hs
  rw [if_pos hr] at ht
  obtain ⟨w', hu, hsub, -⟩ := insideEnvelope_run ht hrun
  exact insideEnvelope_avoids hu (hsub (pushAddr_mem_stored_observe w hb))

end Sys2Proof.Machine

namespace Sys2Proof.Proofs

open Sys2Proof Sys2Proof.Machine

/-- Settles O50: the watch records a PUSH's cell, and its ok is the conjunction of the clauses for the cycle. -/
theorem envelopeWatchRecordsEveryStore : Obligations.EnvelopeWatchRecordsEveryStore := by
  refine fun w s t _ h => ⟨fun a => readByte_of_not_mem_stored h, fun hok => ?_⟩
  obtain ⟨hw, h0, h1, h2⟩ := observe_ok hok
  exact ⟨hw, h0, h1, h2, observe_ok_push hok, observe_ok_pop hok⟩

/-- Settles O53: each state of the run is inside the envelope with its own watch, and the watch remembers every PUSH before it. -/
theorem insideEnvelopeRunBreaksNoClause : Obligations.InsideEnvelopeRunBreaksNoClause := by
  refine fun n w s h => ⟨fun k p hk hp hr => ?cycles, fun j u hj hu => ?start⟩
  case cycles =>
    obtain ⟨m, rfl⟩ := Nat.exists_eq_add_of_lt hk
    obtain ⟨w', hin, -, hlen⟩ := insideEnvelope_run (n := m + 1) h hp
    have hok : (w'.observe p).ok = true := (insideEnvelope_here hin).2.2 (Nat.succ_pos m) hr
    refine ⟨observe_ok_pop hok, fun hb => ?_⟩
    obtain ⟨hsp, himage⟩ := observe_ok_push hok hb
    refine ⟨hsp, hlen ▸ himage, fun j u hkj hj hu => ?_⟩
    obtain ⟨d, rfl⟩ := Nat.exists_eq_add_of_lt hkj
    obtain ⟨l, rfl⟩ := Nat.exists_eq_add_of_le (show d ≤ m by omega)
    have hin' : insideEnvelope (d + 1 + l) w' p = true := by rwa [Nat.add_right_comm]
    obtain ⟨hpc, hfetch⟩ := insideEnvelope_push_avoided hin' hr hb (core_run_add (M := Sys2Proof.core) hu hp)
    exact ⟨hpc, fun hlt => hfetch (by omega)⟩
  case start =>
    obtain ⟨m, rfl⟩ := Nat.exists_eq_add_of_le hj
    obtain ⟨w', hin, hsub, -⟩ := insideEnvelope_run h hu
    obtain ⟨-, hpc, -⟩ := insideEnvelope_here hin
    exact fun hmem => hpc (hsub hmem)

end Sys2Proof.Proofs
end

section
/-! PROOFS. The host's side: the load of an image (70_reset_and_hazards.md R171) and the lines of an image file (30_encoding.md R72,
R73). -/

namespace Sys2Proof.Machine

open Sys2Proof

/-! ### The load -/

/-- The load leaves every address outside the image's alone. -/
theorem read_writeImage_other {base k : Nat} (image : List Byte) (m : Memory) (hk : k < base ∨ base + image.length ≤ k) :
    (writeImage base image m).read k = m.read k := by
  induction image generalizing base m with
  | nil => rfl
  | cons v image ih =>
    rw [List.length_cons] at hk
    rw [writeImage, ih _ (by omega), Memory.read_write_other m v (by omega)]

/-- The load keeps the canonical form where the image ends inside the address space. -/
theorem wf_writeImage {base : Nat} {image : List Byte} {m : Memory} (hm : m.wf = true)
    (hlen : base + image.length ≤ Config.memSize) : (writeImage base image m).wf = true := by
  induction image generalizing base m with
  | nil => exact hm
  | cons v image ih =>
    rw [List.length_cons] at hlen
    exact ih (Memory.wf_write hm (by omega) v) (by omega)

/-- The load puts byte k of the image at base + k. -/
theorem read_writeImage {base : Nat} {image : List Byte} {m : Memory} (hm : m.wf = true)
    (hlen : base + image.length ≤ Config.memSize) {k : Nat} (hk : k < image.length) :
    (writeImage base image m).read (base + k) = image[k] := by
  induction image generalizing base m k with
  | nil => cases hk
  | cons v image ih =>
    rw [List.length_cons] at hlen hk
    rw [writeImage]
    cases k with
    | zero =>
      rw [read_writeImage_other image _ (.inl (by omega))]
      exact Memory.read_write_same hm base v
    | succ k =>
      rw [show base + (k + 1) = base + 1 + k by omega, List.getElem_cons_succ]
      exact ih (Memory.wf_write hm (by omega) v) (by omega) (by omega)

/-! ### A line of eight binary digits -/

/-- The characters of a byte, most significant bit first. -/
def byteDigits (v : Byte) : List Char :=
  (List.finRange 8).map (fun n => if v.getLsbD (7 - n.val) then '1' else '0')

theorem byteDigits_length (v : Byte) : (byteDigits v).length = 8 := by
  simp [byteDigits]

theorem isBinaryDigit_of_mem_byteDigits {v : Byte} {c : Char} (h : c ∈ byteDigits v) : isBinaryDigit c = true := by
  obtain ⟨n, -, rfl⟩ := List.mem_map.mp h
  split <;> rfl

/-- One more digit doubles the value and adds the digit. -/
theorem binaryValue_concat (digits : List Char) (c : Char) :
    binaryValue (digits ++ [c]) = 2 * binaryValue digits + (if c == '1' then 1 else 0) := by
  rw [binaryValue, List.foldl_append]
  rfl

/-- The first n digits of a byte are its n top bits. -/
theorem binaryValue_top_digits (v : Byte) {n : Nat} (hn : n ≤ 8) :
    binaryValue ((List.range n).map (fun k => if v.getLsbD (7 - k) then '1' else '0')) = v.toNat / 2 ^ (8 - n) := by
  induction n with
  | zero => exact (Nat.div_eq_of_lt v.isLt).symm
  | succ n ih =>
    rw [List.range_succ, List.map_append, List.map_singleton, binaryValue_concat, ih (by omega)]
    have hdiv : v.toNat / 2 ^ (8 - n) = v.toNat / 2 ^ (7 - n) / 2 := by
      rw [Nat.div_div_eq_div_mul, ← Nat.pow_succ, show (7 - n).succ = 8 - n by omega]
    have hbit : v.getLsbD (7 - n) = decide (v.toNat / 2 ^ (7 - n) % 2 = 1) := by
      rw [← BitVec.testBit_toNat, Nat.testBit_eq_decide_div_mod_eq]
    rw [hdiv, hbit, show 8 - (n + 1) = 7 - n by omega]
    by_cases h : v.toNat / 2 ^ (7 - n) % 2 = 1
    · simp only [h, decide_true, if_true, beq_self_eq_true]
      omega
    · simp only [h, decide_false, Bool.false_eq_true, if_false, show ('0' == '1') = false from rfl]
      omega

/-- The digits of a byte spell it. -/
theorem binaryValue_byteDigits (v : Byte) : BitVec.ofNat 8 (binaryValue (byteDigits v)) = v := by
  have h : binaryValue (byteDigits v) = v.toNat := (binaryValue_top_digits v (Nat.le_refl 8)).trans (Nat.div_one _)
  rw [h, BitVec.ofNat_toNat, BitVec.setWidth_eq]

/-- A comment begins only after text without its sign. -/
theorem stripComment_append {text : List Char} (h : ∀ c ∈ text, c ≠ '#') (tail : List Char) :
    stripComment (text ++ tail) = text ++ stripComment tail :=
  List.takeWhile_append_of_pos (by simpa using h)

/-- A line that begins with eight binary digits is the byte they spell. -/
theorem imageLine_of_digits {digits : List Char} (hlen : digits.length = 8) (hd : ∀ c ∈ digits, isBinaryDigit c = true)
    (tail : List Char) : imageLine (digits ++ tail) = .byte (BitVec.ofNat 8 (binaryValue digits)) := by
  have hsharp : ∀ c ∈ digits, c ≠ '#' := by
    rintro c hc rfl
    exact absurd (hd _ hc) (by decide)
  have htake : (digits ++ stripComment tail).take 8 = digits := by rw [← hlen, List.take_left]
  obtain ⟨c, text, rfl⟩ := List.exists_cons_of_length_eq_add_one hlen
  rw [imageLine, stripComment_append hsharp, List.cons_append]
  simp only [hd c (List.mem_cons_self ..), if_true]
  rw [binaryLine, ← List.cons_append, htake, if_pos ⟨hlen, List.all_eq_true.mpr hd⟩]

/-! ### Blank lines and comments -/

theorem ne_sharp_of_isLineSpace {c : Char} (h : isLineSpace c = true) : c ≠ '#' := by
  rintro rfl
  exact absurd h (by decide)

theorem isBinaryDigit_of_isLineSpace {c : Char} (h : isLineSpace c = true) : isBinaryDigit c = false := by
  rw [isBinaryDigit, Bool.or_eq_false_iff, beq_eq_false_iff_ne, beq_eq_false_iff_ne]
  constructor
  all_goals
    rintro rfl
    exact absurd h (by decide)

/-- A line with white space only before its comment is skipped. -/
theorem imageLine_of_blank {line blank : List Char} (hs : stripComment line = blank)
    (hb : ∀ c ∈ blank, isLineSpace c = true) : imageLine line = .skip := by
  rw [imageLine, hs]
  cases blank with
  | nil => rfl
  | cons c text =>
    have hdrop : (c :: text).dropWhile isLineSpace = [] := List.dropWhile_eq_nil_iff.mpr hb
    simp only [isBinaryDigit_of_isLineSpace (hb c (List.mem_cons_self ..)), hdrop]
    rfl

end Sys2Proof.Machine

namespace Sys2Proof.Proofs

open Sys2Proof Sys2Proof.Machine

/-- Settles O51: the load is the stores of `writeImage`, made while waiting and for an image that fits. -/
theorem loadPlacesTheImageFromZero : Obligations.LoadPlacesTheImageFromZero := by
  refine fun image s hm => ⟨fun hr hlen => ⟨writeImage 0 image s.mem, if_pos ⟨hr, hlen⟩, ?wf, fun k hk => ?inside,
    fun k hk => ?beyond⟩, fun hno => if_neg ?refused⟩
  case wf => exact wf_writeImage hm ((Nat.zero_add _).trans_le hlen)
  case inside =>
    have h := read_writeImage (base := 0) hm ((Nat.zero_add _).trans_le hlen) hk
    rwa [Nat.zero_add] at h
  case beyond => exact read_writeImage_other image s.mem (.inr (by omega))
  case refused =>
    rintro ⟨hr, hlen⟩
    exact hno.elim (fun h => h hr) (fun h => absurd hlen (Nat.not_le.mpr h))

/-- Settles O52: eight digits are read before anything after them matters; a comment leaves the white space before it. -/
theorem imageLineYieldsOneByte : Obligations.ImageLineYieldsOneByte := by
  refine ⟨fun v tail => ?digits, fun blank hb => ?blank⟩
  case digits =>
    have h := imageLine_of_digits (byteDigits_length v) (fun c => isBinaryDigit_of_mem_byteDigits) tail
    rwa [binaryValue_byteDigits] at h
  case blank =>
    have hspace : ∀ c ∈ blank, isLineSpace c = true := List.all_eq_true.mp hb
    have hstrip (tail : List Char) := stripComment_append (fun c hc => ne_sharp_of_isLineSpace (hspace c hc)) tail
    refine ⟨imageLine_of_blank ?_ hspace, fun comment => imageLine_of_blank ?_ hspace⟩
    · simpa [stripComment] using hstrip []
    · simpa [stripComment] using hstrip ('#' :: comment)

end Sys2Proof.Proofs
end
